-- ==== Sys2Proof/Word.lean ====
section
/-! DEFINITION. The words of the machine (spec 00_scope.md R9, 10_state.md R13 to R16, 30_encoding.md R56): integers,
names, operands and Values. A Value of this type is exactly a LEGAL 80-bit cell word (R60): an illegal word has no
Value, so no state can hold one. Log entries 1 and 15. -/

namespace Sys2Proof

/-- The 64 bits that hold an integer `z`, signed two's complement (R9 `INT_W = 64`, R15). The integer itself is
`BitVec.toInt`, which always lies in `INT_MIN .. INT_MAX`. -/
abbrev Word := BitVec 64

/-- A name at the binary level: a Symbol Table index, unsigned (R16, R59). -/
abbrev SymName := BitVec 64

/-- An opcode number, `OPC` of R56. All 256 are legal in a cell; sixteen have a handler (R62, R63). -/
abbrev Opcode := BitVec 8

/-- One memory cell in the binary form, `CELL_W = 80` (R9, R56). -/
abbrev CellWord := BitVec 80

/-- The operand of an instruction record (R14). -/
inductive Operand where
  | absent
  | lit (z : Word)
  | sym (s : SymName)
deriving DecidableEq, Repr

/-- What a register or a memory cell holds: exactly one of four variants (R13). -/
inductive Value where
  | unset
  | int (z : Word)
  | name (s : SymName)
  | instr (m : Opcode) (o : Operand)
deriving DecidableEq, Repr

/-- A data Value seen as an operand token: the pairing of the arms of block R35 of 20_memory.md (`Sym` with `Name`,
`Lit` with `Int`, `Absent` with `Unset` and `Instr`). -/
def Value.asToken : Value → Operand
  | .unset => .absent
  | .int z => .lit z
  | .name s => .sym s
  | .instr _ _ => .absent

end Sys2Proof
end

