-- ==== Sys2Proof/Syntax.lean ====
section
/-! DEFINITION. The instructions: one constructor for each of the sixteen rows of spec/opcode_table.json (30_encoding.md
R55, R62). Every one carries the operand field of its record, since there is one format (R53) and the decoder hands the
operand to the handler unchanged, whatever its kind (R54, R77). -/

namespace Sys2Proof

inductive Instr where
  /-- `set`, OPC 0x01 (41_set_and_arithmetic.md R88). -/
  | set (o : Operand)
  /-- `add`, OPC 0x02 (R89). -/
  | add (o : Operand)
  /-- `sub`, OPC 0x03 (R90). -/
  | sub (o : Operand)
  /-- `mlt`, OPC 0x04 (R91). -/
  | mlt (o : Operand)
  /-- `div`, OPC 0x05 (R92). -/
  | div (o : Operand)
  /-- `neg`, OPC 0x06 (R94). -/
  | neg (o : Operand)
  /-- `inc`, OPC 0x07 (R95). -/
  | inc (o : Operand)
  /-- `dec`, OPC 0x08 (R96). -/
  | dec (o : Operand)
  /-- `lda`, OPC 0x09 (42_data_movement.md R99). -/
  | lda (o : Operand)
  /-- `sta`, OPC 0x0A (R100). -/
  | sta (o : Operand)
  /-- `br`, OPC 0x0B (43_control_transfer.md R104). -/
  | br (o : Operand)
  /-- `brp`, OPC 0x0C (R105). -/
  | brp (o : Operand)
  /-- `brz`, OPC 0x0D (R106). -/
  | brz (o : Operand)
  /-- `bri`, OPC 0x0E (R108). -/
  | bri (o : Operand)
  /-- `brs`, OPC 0x0F (R109). -/
  | brs (o : Operand)
  /-- `hlt`, OPC 0x10 (R111). -/
  | hlt (o : Operand)
deriving DecidableEq, Repr

/-- The operand field of an instruction. -/
def Instr.operand : Instr → Operand
  | .set o => o
  | .add o => o
  | .sub o => o
  | .mlt o => o
  | .div o => o
  | .neg o => o
  | .inc o => o
  | .dec o => o
  | .lda o => o
  | .sta o => o
  | .br o => o
  | .brp o => o
  | .brz o => o
  | .bri o => o
  | .brs o => o
  | .hlt o => o

end Sys2Proof
end

