-- ==== Sys2Proof/WellFormed.lean ====
section
/-! DEFINITION. The operand each mnemonic takes (spec 30_encoding.md R55). An instruction that fails this check is still
a legal record: the decoder accepts it ("a wrong or missing operand is found by the handler, not by the decoder", R54)
and the machine runs it into the dispatch failure its rule gives. -/

namespace Sys2Proof

/-- `Lit` or `Sym`: what an instruction that needs an address requires (R55). -/
def Operand.isPresent : Operand → Bool
  | .absent => false
  | .lit _ => true
  | .sym _ => true

/-- `Lit` only: what `set` requires (R55). -/
def Operand.isLiteral : Operand → Bool
  | .absent => false
  | .lit _ => true
  | .sym _ => false

/-- The operand column of the table of R55, one row for each mnemonic; `neg`, `inc`, `dec` and `hlt` take none and
ignore one that is present. -/
def Instr.wellFormed : Instr → Bool
  | .set o => o.isLiteral
  | .add o => o.isPresent
  | .sub o => o.isPresent
  | .mlt o => o.isPresent
  | .div o => o.isPresent
  | .neg _ => true
  | .inc _ => true
  | .dec _ => true
  | .lda o => o.isPresent
  | .sta o => o.isPresent
  | .br o => o.isPresent
  | .brp o => o.isPresent
  | .brz o => o.isPresent
  | .bri o => o.isPresent
  | .brs o => o.isPresent
  | .hlt _ => true

end Sys2Proof
end

