-- ==== Sys2Proof/Decode.lean ====
section
/-! DEFINITION. The 80-bit cell word (spec 30_encoding.md R56 to R63): its fields, the Value of a word, the instruction
of a Value, and the encoders. Both decoders are total and reject by name. -/

namespace Sys2Proof

/-- Why a word is not a legal cell, or a legal cell not an instruction. -/
inductive DecodeError where
  /-- `TAG` is 4 to 15: illegal word (R60). -/
  | illegalTag
  /-- `TAG` is 3 and `OPK` is 3 to 15: illegal word (R60). -/
  | illegalOperandKind
  /-- `OPK` is not 0 although `TAG` is not 3: illegal word (R56, R60). -/
  | operandKindNotZero
  /-- `OPC` is not 0 although `TAG` is not 3: illegal word (R56, R60). -/
  | opcodeNotZero
  /-- `OPD` is not 0 in an `Unset` or in an `Instr` with `OPK = 0`: illegal word (R56, R60). -/
  | payloadNotZero
  /-- A legal cell that is no instruction record: `NoHandler` (40_cycle_and_dispatch.md R78). -/
  | notAnInstruction
  /-- An instruction record with opcode 0x00 or 0x11 to 0xFF: `NoHandler` (R63, R78). -/
  | noHandler
deriving DecidableEq, Repr

/-- `TAG`, bits 79:76 (R56). -/
def tagOf (w : CellWord) : BitVec 4 := w.extractLsb' 76 4

/-- `OPK`, bits 75:72 (R56). -/
def opkOf (w : CellWord) : BitVec 4 := w.extractLsb' 72 4

/-- `OPC`, bits 71:64 (R56). -/
def opcOf (w : CellWord) : Opcode := w.extractLsb' 64 8

/-- `OPD`, bits 63:0 (R56). -/
def opdOf (w : CellWord) : BitVec 64 := w.extractLsb' 0 64

/-- A word put together from its four fields, the most significant first (R56). -/
def cellOfFields (tag opk : BitVec 4) (opc : Opcode) (opd : BitVec 64) : CellWord :=
  ((tag ++ opk) ++ opc) ++ opd

/-- Operand assembly for `TAG = 3` (R58): the payload of a literal is read as two's complement, that of a name as an
index; neither is scaled or shifted. -/
def decodeOperand (opk : BitVec 4) (opd : BitVec 64) : Except DecodeError Operand :=
  if opk = 0 then (if opd = 0 then .ok .absent else .error .payloadNotZero)
  else if opk = 1 then .ok (.lit opd)
  else if opk = 2 then .ok (.sym opd)
  else .error .illegalOperandKind

/-- The Value of a word by tag (R57), and the rejection of every illegal word (R56, R60). -/
def decodeCell (w : CellWord) : Except DecodeError Value :=
  if tagOf w = 3 then
    match decodeOperand (opkOf w) (opdOf w) with
    | .ok o => .ok (.instr (opcOf w) o)
    | .error e => .error e
  else if 3 < (tagOf w).toNat then .error .illegalTag
  else if opkOf w ≠ 0 then .error .operandKindNotZero
  else if opcOf w ≠ 0 then .error .opcodeNotZero
  else if tagOf w = 1 then .ok (.int (opdOf w))
  else if tagOf w = 2 then .ok (.name (opdOf w))
  else if opdOf w ≠ 0 then .error .payloadNotZero
  else .ok .unset

/-- The handler array, indexed by opcode number (R62; 40_cycle_and_dispatch.md R79). -/
def handlerOf (m : Opcode) : Option (Operand → Instr) :=
  match m.toNat with
  | 0x01 => some .set
  | 0x02 => some .add
  | 0x03 => some .sub
  | 0x04 => some .mlt
  | 0x05 => some .div
  | 0x06 => some .neg
  | 0x07 => some .inc
  | 0x08 => some .dec
  | 0x09 => some .lda
  | 0x0A => some .sta
  | 0x0B => some .br
  | 0x0C => some .brp
  | 0x0D => some .brz
  | 0x0E => some .bri
  | 0x0F => some .brs
  | 0x10 => some .hlt
  | _ => none

/-- The decode function of block R78, total on every Value: the handler and its operand, or `NoHandler`. -/
def decodeValue (v : Value) : Except DecodeError Instr :=
  match v with
  | .instr m o =>
    match handlerOf m with
    | some h => .ok (h o)
    | none => .error .noHandler
  | .unset => .error .notAnInstruction
  | .int _ => .error .notAnInstruction
  | .name _ => .error .notAnInstruction

/-- A word decoded as an instruction: the Value of the word (R57), then the handler of the Value (R78). -/
def decode (w : CellWord) : Except DecodeError Instr :=
  match decodeCell w with
  | .ok v => decodeValue v
  | .error e => .error e

/-- `OPK` of an operand (R56). -/
def operandKind : Operand → BitVec 4
  | .absent => 0
  | .lit _ => 1
  | .sym _ => 2

/-- `OPD` of an operand (R58). -/
def operandPayload : Operand → BitVec 64
  | .absent => 0
  | .lit z => z
  | .sym s => s

/-- The word of a Value, the inverse of R57 and R58. -/
def encodeCell : Value → CellWord
  | .unset => cellOfFields 0 0 0 0
  | .int z => cellOfFields 1 0 0 z
  | .name s => cellOfFields 2 0 0 s
  | .instr m o => cellOfFields 3 (operandKind o) m (operandPayload o)

/-- The opcode number of an instruction (the table of R62). -/
def Instr.opcode : Instr → Opcode
  | .set _ => 0x01
  | .add _ => 0x02
  | .sub _ => 0x03
  | .mlt _ => 0x04
  | .div _ => 0x05
  | .neg _ => 0x06
  | .inc _ => 0x07
  | .dec _ => 0x08
  | .lda _ => 0x09
  | .sta _ => 0x0A
  | .br _ => 0x0B
  | .brp _ => 0x0C
  | .brz _ => 0x0D
  | .bri _ => 0x0E
  | .brs _ => 0x0F
  | .hlt _ => 0x10

/-- The instruction record a cell holds for an instruction (R53, R54). -/
def Instr.record (i : Instr) : Value := .instr i.opcode i.operand

/-- The word of an instruction. Instructions are one cell long (R53), so this is all of it. -/
def encode (i : Instr) : CellWord := encodeCell i.record

/-- One row of spec/opcode_table.json (R65). -/
structure OpcodeRow where
  mnemonic : String
  pattern : CellWord
  mask : CellWord
deriving DecidableEq, Repr

/-- The mask of every row: `TAG` and `OPC`, "because decoding never looks at the operand" (R65). -/
def opcodeMask : CellWord := 0xF0FF0000000000000000

/-- spec/opcode_table.json, row for row (R62, R65). -/
def opcodeTable : List OpcodeRow :=
  [⟨"set", 0x30010000000000000000, opcodeMask⟩,
   ⟨"add", 0x30020000000000000000, opcodeMask⟩,
   ⟨"sub", 0x30030000000000000000, opcodeMask⟩,
   ⟨"mlt", 0x30040000000000000000, opcodeMask⟩] ++
  [⟨"div", 0x30050000000000000000, opcodeMask⟩,
   ⟨"neg", 0x30060000000000000000, opcodeMask⟩,
   ⟨"inc", 0x30070000000000000000, opcodeMask⟩,
   ⟨"dec", 0x30080000000000000000, opcodeMask⟩] ++
  [⟨"lda", 0x30090000000000000000, opcodeMask⟩,
   ⟨"sta", 0x300A0000000000000000, opcodeMask⟩,
   ⟨"br", 0x300B0000000000000000, opcodeMask⟩,
   ⟨"brp", 0x300C0000000000000000, opcodeMask⟩] ++
  [⟨"brz", 0x300D0000000000000000, opcodeMask⟩,
   ⟨"bri", 0x300E0000000000000000, opcodeMask⟩,
   ⟨"brs", 0x300F0000000000000000, opcodeMask⟩,
   ⟨"hlt", 0x30100000000000000000, opcodeMask⟩]

/-- The mnemonic of an instruction, lower case as the source folds it (R54, R65 `mnemonic_key`). -/
def Instr.mnemonic : Instr → String
  | .set _ => "set"
  | .add _ => "add"
  | .sub _ => "sub"
  | .mlt _ => "mlt"
  | .div _ => "div"
  | .neg _ => "neg"
  | .inc _ => "inc"
  | .dec _ => "dec"
  | .lda _ => "lda"
  | .sta _ => "sta"
  | .br _ => "br"
  | .brp _ => "brp"
  | .brz _ => "brz"
  | .bri _ => "bri"
  | .brs _ => "brs"
  | .hlt _ => "hlt"

/-- The instruction the decoder reads from the bits `w` of an opcode-table row of `nbits` bits; bits above `nbits` are
0, and an instruction is one 80-bit cell. -/
def decodeTableWord (nbits w : Nat) : Option Instr :=
  if w % 2 ^ nbits < 2 ^ 80 then (decode (BitVec.ofNat 80 (w % 2 ^ nbits))).toOption else none

/-- The Value of the cell that holds those same bits, where the word is legal. -/
def cellOfTableWord (nbits w : Nat) : Option Value :=
  if w % 2 ^ nbits < 2 ^ 80 then (decodeCell (BitVec.ofNat 80 (w % 2 ^ nbits))).toOption else none

end Sys2Proof
end

