-- ==== Sys2Proof/Config.lean ====
section
/-! DEFINITION. The implementation parameters of spec 00_scope.md R9: those the spec decides are constants, those it
leaves open are the fields of `Params`, which the machine carries and no step changes (log entries 2 and 3). -/

namespace Sys2Proof

/-- `INT_MIN` for `INT_W = 64` (R9). -/
def intMin : Int := -9223372036854775808

/-- `INT_MAX` for `INT_W = 64` (R9). -/
def intMax : Int := 9223372036854775807

/-- `RESET_PC`: the value of PC at the start of a run (R9, R132). -/
def resetPc : Word := 1

/-- `DEVICE_ADDR`: the address of the I/O device (R9, R49). -/
def deviceAddr : Word := 0

/-- The name of the input device, Symbol Table index 0 (R59). -/
def nameIn : SymName := 0

/-- The name of the output device, Symbol Table index 1 (R59). -/
def nameOut : SymName := 1

/-- The open parameters of R9. `none` is "unbounded", the default the spec names for both. -/
structure Params where
  /-- `MEM_CAP`, the number of cells memory can grow to. -/
  memCap : Option Nat
  /-- `SYM_N`, the number of Symbol Table slots. -/
  symSlots : Option Nat
deriving DecidableEq, Repr

/-- Both parameters at the default of 92_eei_decisions.md, "Open parameters, collected": unbounded. -/
def Params.unbounded : Params := ⟨none, none⟩

/-- Is cell `n` below `MEM_CAP`? -/
def Params.hasCell (p : Params) (n : Nat) : Bool :=
  match p.memCap with
  | none => true
  | some cap => decide (n < cap)

/-- Is index `i` below `SYM_N`? "An index `>= SYM_N` names no slot and is never bound" (R59). -/
def Params.hasSlot (p : Params) (i : Nat) : Bool :=
  match p.symSlots with
  | none => true
  | some n => decide (i < n)

/-- The open parameters of R9 that only source text shows: `COMMENT_CHAR`, `NAME_IN` and `NAME_OUT`. They are arguments of
the Loader, which is outside the block (R4), and no part of the machine. -/
structure LoaderParams where
  commentChar : Char
  nameIn : List Char
  nameOut : List Char
deriving DecidableEq, Repr

/-- The bounds R9 puts on the open parameters: `SYM_N` at least 2 and at most `2^64`, `MEM_CAP` at most `2^63`. -/
def Params.wf (p : Params) : Bool :=
  (match p.memCap with
   | none => true
   | some cap => decide (cap ≤ 2 ^ 63)) &&
  (match p.symSlots with
   | none => true
   | some n => decide (2 ≤ n) && decide (n ≤ 2 ^ 64))

end Sys2Proof
end

