-- ==== Sys2Proof/Machine/State.lean ====
section
/-! DEFINITION. The state of the machine (spec 10_state.md), the reasons a step or a host transaction can stop, and the
reset states (70_reset_and_hazards.md R131 to R133). Plain data only. -/

namespace Sys2Proof.Machine

/-- The six causes of a dispatch failure (60_exceptions.md R114). `None`, code 0, is `Option.none` in `State.fault`. -/
inductive Cause where
  | unknownMnemonic
  | unresolvedAddress
  | nonNumericOperand
  | divideByZero
  | integerOverflow
  | addressOutOfRange
deriving DecidableEq, Repr

/-- What the input device can supply: an integer in range or a name, never `Unset` and never an instruction record
(60_exceptions.md R126). -/
inductive DeviceValue where
  | int (z : Word)
  | name (s : SymName)
deriving DecidableEq, Repr

/-- MEM and MLEN (10_state.md R24, R25). `cells` lists the cells that do not read `Unset`, addresses strictly rising;
`len` is MLEN. The unit of addressing is the cell, which holds a Value (log entry 4). -/
structure Memory where
  cells : List (Nat × Value)
  len : Nat
deriving DecidableEq, Repr

/-- The whole machine (10_state.md R17, R24 to R30), with the wait state of 60_exceptions.md R129 and the open
parameters of 00_scope.md R9. -/
structure State where
  /-- PC, R18. -/
  pc : Value
  /-- AR, R19. -/
  ar : Value
  /-- IR, R20. -/
  ir : Value
  /-- ACC, R21. -/
  acc : Value
  /-- B, R22. -/
  b : Value
  /-- MEM and MLEN, R24 and R25. -/
  mem : Memory
  /-- SYM, R26: each bound name with its Value, names strictly rising. -/
  sym : List (Nat × Value)
  /-- RUNNING, R27. -/
  running : Bool
  /-- FAULT, R28. -/
  fault : Option Cause
  /-- IN_Q, R29: what the device has yet to supply, the next value first. -/
  inQ : List DeviceValue
  /-- OUT_LOG, R29: what was emitted, the oldest first. -/
  outLog : List Value
  /-- DIAG, R30. -/
  diag : Bool
  /-- The engine stands inside an Execute phase, waiting at a read of address 0 (60_exceptions.md R129; log entry 7). -/
  blocked : Bool
  /-- `MEM_CAP` and `SYM_N`, constants of the machine (00_scope.md R9; log entry 3). -/
  params : Params
deriving DecidableEq, Repr

/-- Why a step stops. The spec's own exception, the dispatch failure, is no stop: it is a next state, and no instruction
stops. The one reason does not arise in a state that a run reaches (10_state.md R33; log entry 11). -/
inductive Fault where
  /-- Raised by the Increment phase when PC holds no integer, so that `PC + 1` has no meaning. Safe. -/
  | pcNotInteger
deriving DecidableEq, Repr

/-- Why the model gives no meaning. All but the first are answers to a HOST transaction, never to an instruction. -/
inductive Refusal where
  /-- `exec`, for an instruction without a meaning yet. Safe. -/
  | notModelled (mnemonic : String)
  /-- A host write, bind, `Run` or DIAG change while a run is in progress (70_reset_and_hazards.md R144,
  93_implementation_defined.md U16). Safe. -/
  | hostDuringRun
  /-- A host bind of one of the two reserved names (R141 g, U6; log entry 13). Safe. -/
  | reservedName
  /-- A host bind of an index that names no slot (30_encoding.md R59; log entry 13). Safe. -/
  | noSuchSlot
  /-- A host write to an address that `MemWrite` rejects (20_memory.md R42; log entry 13). Safe. -/
  | hostWriteOutOfRange
  /-- The Loader meets a label that is already bound (30_encoding.md R71 e, U17; log entry 14). Safe. -/
  | labelBoundTwice
  /-- The Loader meets an integer literal that no operand can hold (10_state.md R15; log entry 14). Safe. -/
  | literalOutOfRange
deriving DecidableEq, Repr

/-- What a step, a meaning or a transaction answers. -/
abbrev Result := Host.Outcome State Fault Refusal

/-- The Symbol Table after `Construct`: the two reserved names, each bound to `Int(0)` (R26, R59, R131). -/
def reservedNames : List (Nat × Value) := [(0, .int deviceAddr), (1, .int deviceAddr)]

/-- The machine after `Construct`, the power-on of R131. -/
def State.construct (p : Params) : State where
  pc := .int resetPc
  ar := .unset
  ir := .unset
  acc := .unset
  b := .unset
  mem := ⟨[], 0⟩
  sym := reservedNames
  running := false
  fault := none
  inQ := []
  outLog := []
  diag := false
  blocked := false
  params := p

/-- The machine right after reset: constructed (R131) and then reset for its first run (R133). Log entry 5; for the
values the spec does not give (IN_Q, DIAG, the open parameters, `blocked`) log entries 3, 7, 8 and 9. -/
def State.reset : State where
  pc := .int resetPc
  ar := .unset
  ir := .unset
  acc := .unset
  b := .unset
  mem := ⟨[], 0⟩
  sym := reservedNames
  running := true
  fault := none
  inQ := []
  outLog := []
  diag := false
  blocked := false
  params := Params.unbounded

end Sys2Proof.Machine
end

