-- ==== Sys2Proof/Machine/Ops.lean ====
section
/-! DEFINITION. The named operations over registers, memory, Symbol Table and device (spec 20_memory.md), the dispatch
failure (60_exceptions.md R120), the loop test (40_cycle_and_dispatch.md R73) and the run-start reset
(70_reset_and_hazards.md R133), which is the only way on after a failure: there is no return from one (R121). -/

namespace Sys2Proof.Machine

/-! ### One setter for each piece of state -/

def State.setPc (s : State) (v : Value) : State := { s with pc := v }
def State.setAr (s : State) (v : Value) : State := { s with ar := v }
def State.setIr (s : State) (v : Value) : State := { s with ir := v }
def State.setAcc (s : State) (v : Value) : State := { s with acc := v }
def State.setB (s : State) (v : Value) : State := { s with b := v }
def State.setMem (s : State) (m : Memory) : State := { s with mem := m }
def State.setSym (s : State) (t : List (Nat × Value)) : State := { s with sym := t }
def State.setRunning (s : State) (r : Bool) : State := { s with running := r }
def State.setFault (s : State) (f : Option Cause) : State := { s with fault := f }
def State.setInQ (s : State) (q : List DeviceValue) : State := { s with inQ := q }
def State.setOutLog (s : State) (l : List Value) : State := { s with outLog := l }
def State.setDiag (s : State) (d : Bool) : State := { s with diag := d }
def State.setBlocked (s : State) (w : Bool) : State := { s with blocked := w }

/-! ### Tables in canonical form: keys strictly rising -/

/-- The Value listed under a key. -/
def tableGet : List (Nat × Value) → Nat → Option Value
  | [], _ => none
  | (k, v) :: t, n => if k = n then some v else tableGet t n

/-- The table with `v` listed under `n`, in place or inserted in order. -/
def tablePut : List (Nat × Value) → Nat → Value → List (Nat × Value)
  | [], n, v => [(n, v)]
  | (k, w) :: t, n, v =>
    if n < k then (n, v) :: (k, w) :: t
    else if n = k then (n, v) :: t
    else (k, w) :: tablePut t n v

/-- The table with nothing listed under `n`. -/
def tableErase (t : List (Nat × Value)) (n : Nat) : List (Nat × Value) :=
  t.filter fun e => decide (e.1 ≠ n)

/-- The table without the keys from `len` up. -/
def tableBelow (t : List (Nat × Value)) (len : Nat) : List (Nat × Value) :=
  t.filter fun e => decide (e.1 < len)

/-- Are the keys strictly rising? -/
def tableSorted (t : List (Nat × Value)) : Bool :=
  decide (t.Pairwise fun x y => x.1 < y.1)

/-! ### Memory -/

/-- What an address that is not listed reads as: the unset marker (R37, R43, R45). -/
def unlisted : Value := .unset

/-- The canonical form: addresses strictly rising, no cell listed that reads as an unlisted one does, none at or beyond
MLEN. -/
def Memory.wf (m : Memory) : Bool :=
  tableSorted m.cells && m.cells.all fun e => decide (e.2 ≠ unlisted) && decide (e.1 < m.len)

/-- The content of cell `n`, whether or not it exists. -/
def Memory.cell (m : Memory) (n : Nat) : Value := (tableGet m.cells n).getD unlisted

/-- The in-bounds arm of `MemRead` and its last arm (block R37): a cell that exists, else `Unset`. -/
def Memory.read (m : Memory) (n : Int) : Value :=
  if 0 ≤ n ∧ n < m.len then m.cell n.toNat else unlisted

/-- The cells with `v` in cell `n`. -/
def setCell (t : List (Nat × Value)) (n : Nat) (v : Value) : List (Nat × Value) :=
  if v = unlisted then tableErase t n else tablePut t n v

/-- The in-bounds arm of `MemWrite` (block R40). -/
def Memory.overwrite (m : Memory) (n : Nat) (v : Value) : Memory :=
  { m with cells := setCell m.cells n v }

/-- The growth arm of `MemWrite`, in one move (R43): MLEN becomes `n + 1`, the cells made on the way are `Unset`, cell
`n` is `v`. -/
def Memory.grow (m : Memory) (n : Nat) (v : Value) : Memory :=
  { cells := setCell (tableBelow m.cells m.len) n v, len := n + 1 }

/-- One turn of the loop of block R40: `MEM[MLEN] <- Unset; MLEN <- MLEN + 1`. -/
def Memory.appendUnset (m : Memory) : Memory :=
  { cells := setCell m.cells m.len unlisted, len := m.len + 1 }

/-- `k` turns of that loop. -/
def Memory.appendUnsets (m : Memory) : Nat → Memory
  | 0 => m
  | k + 1 => (m.appendUnsets k).appendUnset

/-! ### Symbol Table -/

/-- `SYM[s]` where `bound(s)` holds. An index that names no slot is never bound (30_encoding.md R59). -/
def symLookup (s : State) (n : SymName) : Option Value :=
  if s.params.hasSlot n.toNat then tableGet s.sym n.toNat else none

/-- `SYM[s] <- v`. -/
def symBind (s : State) (n : SymName) (v : Value) : State := s.setSym (tablePut s.sym n.toNat v)

/-! ### Device -/

/-- The Value a device value is (R126). -/
def DeviceValue.toValue : DeviceValue → Value
  | .int z => .int z
  | .name s => .name s

/-- `DevIn()`: removes and answers the head of IN_Q; `none` while there is none (R29). -/
def devIn (s : State) : Option (Value × State) :=
  match s.inQ with
  | [] => none
  | v :: q => some (v.toValue, s.setInQ q)

/-- `DevOut(v)`: appends to OUT_LOG (R29). -/
def devOut (v : Value) (s : State) : State := s.setOutLog (s.outLog ++ [v])

/-! ### MemRead and MemWrite -/

/-- The arms of block R37 after the device arm, none of which changes the state: the symbol arm, the in-bounds arm, and
`Unset` for everything else. -/
def memPeek (a : Value) (s : State) : Value :=
  match a with
  | .name n => (symLookup s n).getD unlisted
  | .int z => s.mem.read z.toInt
  | .unset => unlisted
  | .instr _ _ => unlisted

/-- `MemRead(a, 1)` (block R37). `none` says that the read waits for input (R38). -/
def memRead (a : Value) (s : State) : Option (Value × State) :=
  if a = .int deviceAddr then devIn s else some (memPeek a s, s)

/-- `MemWrite(a, 1, v)` (block R40), its arms in the spec's order. -/
def memWrite (a v : Value) (s : State) : Except Cause State :=
  if a = .int deviceAddr then .ok (devOut v s)
  else match a with
    | .name n => if (symLookup s n).isSome then .ok (symBind s n v) else .error .addressOutOfRange
    | .int z =>
      if z.toInt < 0 then .error .addressOutOfRange
      else if z.toInt.toNat < s.mem.len then .ok (s.setMem (s.mem.overwrite z.toInt.toNat v))
      else if s.params.hasCell z.toInt.toNat then .ok (s.setMem (s.mem.grow z.toInt.toNat v))
      else .error .addressOutOfRange
    | .unset => .error .addressOutOfRange
    | .instr _ _ => .error .addressOutOfRange

/-! ### Dispatch failure, end of run, start of run -/

/-- `raise DispatchFailure(cause)`: `FAULT <- cause; PC <- Int(0)`, nothing else and nothing saved (block R120). The run
then ends at the loop test. -/
def dispatchFailure (c : Cause) (s : State) : State := (s.setFault (some c)).setPc (.int 0)

/-- The code of FAULT (R114). -/
def faultCode : Option Cause → Nat
  | none => 0
  | some .unknownMnemonic => 1
  | some .unresolvedAddress => 2
  | some .nonNumericOperand => 3
  | some .divideByZero => 4
  | some .integerOverflow => 5
  | some .addressOutOfRange => 6

/-- A micro-operation that can raise, and what follows it when it does not: "a `raise` stops the handler at that point"
(R81). `s` is the state in which it would raise. -/
def orRaise {α : Type} (x : Except Cause α) (s : State) (k : α → Result) : Result :=
  match x with
  | .ok a => k a
  | .error c => .next (dispatchFailure c s)

/-- A `MemRead` in a handler, and what follows it: with no input the engine stays in this Execute phase (R129). -/
def orWait (x : Option (Value × State)) (s : State) (k : Value → State → Result) : Result :=
  match x with
  | some (v, s') => k v s'
  | none => .next (s.setBlocked true)

/-- The loop test after an Execute phase: `PC = Int(0)` ends the run (blocks R73 and R120, R138). -/
def loopTest (s : State) : State := if s.pc = .int 0 then s.setRunning false else s

/-- The run-start reset (block R133). MEM, MLEN, SYM, IN_Q, OUT_LOG and DIAG are not touched; no wait survives the end
of a run, so none is left at its start. -/
def runStartReset (s : State) : State :=
  ((((((((s.setPc (.int resetPc)).setAr .unset).setIr .unset).setAcc .unset).setB .unset).setFault none).setRunning
    true).setBlocked false)

/-- A second action after one that answers a next state. -/
def andThen (r : Result) (k : State → Result) : Result :=
  match r with
  | .next s => k s
  | .fault f => .fault f
  | .refused q => .refused q

end Sys2Proof.Machine
end

