-- ==== Sys2Proof/Machine/Flags.lean ====
section
/-! DEFINITION. The machine has no flags (spec 10_state.md R31): what other machines keep in flags is here a range check
that raises (41_set_and_arithmetic.md R86) and two comparisons of the accumulator (R87). -/

namespace Sys2Proof.Machine

/-- Does an exact result lie in `INT_MIN .. INT_MAX`? -/
def inRange (z : Int) : Bool := decide (intMin ≤ z) && decide (z ≤ intMax)

/-- The range law (R86): an exact result in range is the result, any other raises `IntegerOverflow`. -/
def narrow (z : Int) : Except Cause Word :=
  if inRange z then .ok (BitVec.ofInt 64 z) else .error .integerOverflow

/-- The comparison of `brp`: strictly greater than 0 (43_control_transfer.md R105). -/
def isPositive (x : Int) : Bool := decide (0 < x)

/-- The comparison of `brz`: equal to 0 (R106). -/
def isZero (x : Int) : Bool := decide (x = 0)

/-- Division of exact integers, rounded toward negative infinity (R92, R93); the divisor is tested first. -/
def floorDivide (x y : Int) : Except Cause Int :=
  if y = 0 then .error .divideByZero else .ok (Int.fdiv x y)

end Sys2Proof.Machine
end

