-- ==== Sys2Proof/Machine/Operands.lean ====
section
/-! DEFINITION. Operands: from a token to an address (spec 20_memory.md R35, R36) and from a Value to an integer
(40_cycle_and_dispatch.md R82). The modes of 42_data_movement.md R98 are these two and `memRead`: immediate is the
literal of `set`, direct and symbolic are the two arms of `resolve`, indirect is `resolve` of what `memRead` gives. -/

namespace Sys2Proof.Machine

/-- `resolve(t)` (block R35). It reads SYM and changes nothing; there is no range check (R36 e). -/
def resolve (t : Operand) (s : State) : Except Cause Value :=
  match t with
  | .sym n =>
    match symLookup s n with
    | some v => .ok v
    | none => .error .unresolvedAddress
  | .lit z => .ok (.int z)
  | .absent => .error .unresolvedAddress

/-- `resolve` of a Value read from memory (block R35, R36 f): `Int` and `Name` as the tokens they spell, `Unset` and
`Instr` fail. -/
def resolveValue (v : Value) (s : State) : Except Cause Value := resolve v.asToken s

/-- `toInt(v)`, the integer coercion (block R82). -/
def toInt (v : Value) : Except Cause Int :=
  match v with
  | .int z => .ok z.toInt
  | .unset => .error .nonNumericOperand
  | .name _ => .error .nonNumericOperand
  | .instr _ _ => .error .nonNumericOperand

/-- The integer of an address that is written (60_exceptions.md R114, code 6: "a write address is negative, not below
`MEM_CAP`, or not an integer"). Every address is an integer in a reachable state (20_memory.md R46; log entry 11). -/
def writeAddress (a : Value) : Except Cause Word :=
  match a with
  | .int n => .ok n
  | .unset => .error .addressOutOfRange
  | .name _ => .error .addressOutOfRange
  | .instr _ _ => .error .addressOutOfRange

/-- The integer of `set`'s operand, which must be a literal (block R88). -/
def immediate (o : Operand) : Except Cause Word :=
  match o with
  | .lit z => .ok z
  | .sym _ => .error .nonNumericOperand
  | .absent => .error .nonNumericOperand

end Sys2Proof.Machine
end

