-- ==== Sys2Proof/Machine/Arith.lean ====
section
/-! DEFINITION. `set`, `add`, `sub`, `mlt`, `div`, `neg`, `inc`, `dec` (spec 41_set_and_arithmetic.md). None writes PC, AR
or memory; each falls through to the PC the Increment phase left. -/

namespace Sys2Proof.Machine

/-- The two-operand pattern (R85), its micro-operations in order: resolve, read into B, coerce ACC, coerce B, operate,
check the range, write ACC. -/
def twoOperand (op : Int → Int → Except Cause Int) (o : Operand) (s : State) : Result :=
  orRaise (resolve o s) s fun a =>
    orWait (memRead a s) s fun v s1 =>
      orRaise (toInt s1.acc) (s1.setB v) fun x =>
        orRaise (toInt v) (s1.setB v) fun y =>
          orRaise (op x y) (s1.setB v) fun z =>
            orRaise (narrow z) (s1.setB v) fun r => .next ((s1.setB v).setAcc (.int r))

/-- The pattern of `neg`, `inc` and `dec`: coerce ACC, operate, check the range, write ACC (blocks R94 to R96). -/
def oneOperand (op : Int → Int) (s : State) : Result :=
  orRaise (toInt s.acc) s fun x => orRaise (narrow (op x)) s fun r => .next (s.setAcc (.int r))

/-- `set` (block R88). -/
def execSet (o : Operand) (s : State) : Result :=
  orRaise (immediate o) s fun z => .next (s.setAcc (.int z))

/-- `add` (block R89). -/
def execAdd (o : Operand) (s : State) : Result := twoOperand (fun x y => .ok (x + y)) o s

/-- `sub` (block R90): the accumulator is the minuend. -/
def execSub (o : Operand) (s : State) : Result := twoOperand (fun x y => .ok (x - y)) o s

/-- `mlt` (block R91). -/
def execMlt (o : Operand) (s : State) : Result := twoOperand (fun x y => .ok (x * y)) o s

/-- `div` (block R92): the accumulator is the dividend. -/
def execDiv (o : Operand) (s : State) : Result := twoOperand floorDivide o s

/-- `neg` (block R94). An operand is ignored: not resolved, cannot fail. -/
def execNeg (_ : Operand) (s : State) : Result := oneOperand (fun x => -x) s

/-- `inc` (block R95). An operand is ignored. -/
def execInc (_ : Operand) (s : State) : Result := oneOperand (fun x => x + 1) s

/-- `dec` (block R96). An operand is ignored. -/
def execDec (_ : Operand) (s : State) : Result := oneOperand (fun x => x - 1) s

end Sys2Proof.Machine
end

