-- ==== Sys2Proof/Machine/Control.lean ====
section
/-! DEFINITION. `br`, `brp`, `brz`, `bri`, `brs`, `hlt` (spec 43_control_transfer.md). A control transfer is a write to PC
and nothing more (R103); none of the six writes ACC or B. -/

namespace Sys2Proof.Machine

/-- `PC <- resolve(o)`. -/
def jump (o : Operand) (s : State) : Result :=
  orRaise (resolve o s) s fun a => .next (s.setPc a)

/-- The conditional branch: ACC is coerced, and the operand resolved only when the branch is taken (blocks R105 and
R106). -/
def branchIf (test : Int → Bool) (o : Operand) (s : State) : Result :=
  orRaise (toInt s.acc) s fun x => if test x then jump o s else .next s

/-- `br` (block R104). -/
def execBr (o : Operand) (s : State) : Result := jump o s

/-- `brp` (block R105). -/
def execBrp (o : Operand) (s : State) : Result := branchIf isPositive o s

/-- `brz` (block R106). -/
def execBrz (o : Operand) (s : State) : Result := branchIf isZero o s

/-- `bri` (block R108): the target is `resolve` of the cell's content. -/
def execBri (o : Operand) (s : State) : Result :=
  orRaise (resolve o s) s fun a =>
    orWait (memRead a (s.setAr a)) (s.setAr a) fun t s1 =>
      orRaise (resolveValue t s1) s1 fun target => .next (s1.setPc target)

/-- `brs` (block R109): the entry address is checked before the write, and every failure comes before it, so a failing
`brs` changes no memory. -/
def execBrs (o : Operand) (s : State) : Result :=
  orRaise (resolve o s) s fun a =>
    orRaise (writeAddress a) s fun n =>
      orRaise (narrow (n.toInt + 1)) s fun entry =>
        orRaise (memWrite (.int n) s.pc s) s fun s1 => .next (s1.setPc (.int entry))

/-- `hlt` (block R111). An operand is ignored. -/
def execHlt (_ : Operand) (s : State) : Result := .next (s.setPc (.int 0))

end Sys2Proof.Machine
end

