-- ==== Sys2Proof/Machine/Move.lean ====
section
/-! DEFINITION. `lda` and `sta` (spec 42_data_movement.md). Both write AR; neither writes PC or B. -/

namespace Sys2Proof.Machine

/-- `lda` (block R99): the Value is copied whole. -/
def execLda (o : Operand) (s : State) : Result :=
  orRaise (resolve o s) s fun a =>
    orWait (memRead a (s.setAr a)) (s.setAr a) fun v s1 => .next (s1.setAcc v)

/-- `sta` (block R100): ACC is stored as it is; AR is written before the write can fail. -/
def execSta (o : Operand) (s : State) : Result :=
  orRaise (resolve o s) s fun a =>
    orRaise (memWrite a (s.setAr a).acc (s.setAr a)) (s.setAr a) fun s1 => .next s1

end Sys2Proof.Machine
end

