-- ==== Sys2Proof/Machine/Dispatch.lean ====
section
/-! DEFINITION. The handler array (spec 40_cycle_and_dispatch.md R79): one handler for each mnemonic. -/

namespace Sys2Proof.Machine

def exec (i : Instr) (s : State) : Host.Outcome State Fault Refusal :=
  match i with
  | .set o => Sys2Proof.Machine.execSet o s
  | .add o => Sys2Proof.Machine.execAdd o s
  | .sub o => Sys2Proof.Machine.execSub o s
  | .mlt o => Sys2Proof.Machine.execMlt o s
  | .div o => Sys2Proof.Machine.execDiv o s
  | .neg o => Sys2Proof.Machine.execNeg o s
  | .inc o => Sys2Proof.Machine.execInc o s
  | .dec o => Sys2Proof.Machine.execDec o s
  | .lda o => Sys2Proof.Machine.execLda o s
  | .sta o => Sys2Proof.Machine.execSta o s
  | .br o => Sys2Proof.Machine.execBr o s
  | .brp o => Sys2Proof.Machine.execBrp o s
  | .brz o => Sys2Proof.Machine.execBrz o s
  | .bri o => Sys2Proof.Machine.execBri o s
  | .brs o => Sys2Proof.Machine.execBrs o s
  | .hlt o => Sys2Proof.Machine.execHlt o s

end Sys2Proof.Machine
end

