-- ==== Sys2Proof/Machine/Cycle.lean ====
section
/-! DEFINITION. The fetch, increment, execute cycle (spec 40_cycle_and_dispatch.md R73 to R83), the wait for input
(60_exceptions.md R129), and the placing of an instruction where the next cycle fetches it. -/

namespace Sys2Proof.Machine

/-- Fetch (R74): `AR <- PC; IR <- MemRead(AR, 1)`. The loop test has just excluded `PC = 0`, so the device arm is not
taken and the read changes nothing else. -/
def fetch (s : State) : State := (s.setAr s.pc).setIr (memPeek s.pc s)

/-- Execute (block R79): the handler of the Value in IR, or `UnknownMnemonic` (R80, R115). -/
def execute (s : State) : Result :=
  match decodeValue s.ir with
  | .ok i => exec i s
  | .error _ => .next (dispatchFailure .unknownMnemonic s)

/-- Increment (R75, R76) and then Execute; at `PC = INT_MAX` the increment fails and Execute does not run. -/
def incrementAndExecute (s : State) : Result :=
  match s.pc with
  | .int p => orRaise (narrow (p.toInt + 1)) s fun q => execute (s.setPc (.int q))
  | .unset => .fault .pcNotInteger
  | .name _ => .fault .pcNotInteger
  | .instr _ _ => .fault .pcNotInteger

/-- A whole cycle and the loop test that follows it (block R73). -/
def cycle (s : State) : Result :=
  andThen (incrementAndExecute (fetch s)) fun t => .next (loopTest t)

/-- The rest of a cycle that waits for input: nothing while there is none; else the Execute phase goes on. Its handler
is entered again from the start, which repeats nothing but a look-up and the writing of the same address into AR (log
entry 7). -/
def resume (s : State) : Result :=
  match s.inQ with
  | [] => .next s
  | _ :: _ => andThen (execute (s.setBlocked false)) fun t => .next (loopTest t)

/-- One step of the engine: enabled while a run is in progress and `PC != Int(0)` (R83); without one there is no step,
and the state stays (log entry 6). -/
def engineStep (s : State) : Result :=
  if s.running then
    if s.blocked then resume s
    else if s.pc = .int 0 then .next (loopTest s)
    else cycle s
  else .next s

/-- Will the next step fetch at this PC and run what it finds? -/
def fetchesAt (s : State) : Bool :=
  s.running && !s.blocked &&
    match s.pc with
    | .int p => decide (0 < p.toInt) && decide (p.toInt < intMax) && s.params.hasCell p.toInt.toNat
    | .unset => false
    | .name _ => false
    | .instr _ _ => false

/-- The state itself where its next step fetches, else the state at the start of a new run (R133). -/
def readyToFetch (s : State) : State := if fetchesAt s then s else runStartReset s

/-- The state with `v` in the cell that PC names, memory grown to it where it must (R43). -/
def placeAtPc (v : Value) (s : State) : State :=
  match s.pc with
  | .int p =>
    if p.toInt.toNat < s.mem.len then s.setMem (s.mem.overwrite p.toInt.toNat v)
    else s.setMem (s.mem.grow p.toInt.toNat v)
  | .unset => s
  | .name _ => s
  | .instr _ _ => s

/-- The state with the cell of a table word stored where the next step fetches; an illegal word is no cell, and leaves
the state as it is (R60). -/
def placeTableWord (s : State) (nbits w : Nat) : State :=
  match cellOfTableWord nbits w with
  | some v => placeAtPc v (readyToFetch s)
  | none => s

end Sys2Proof.Machine
end

