-- ==== Sys2Proof/Machine/Step.lean ====
section
/-! DEFINITION. One step of the machine, and the storing of an instruction where that step fetches it. -/

namespace Sys2Proof.Machine

/-- One cycle of the engine is one step (spec 40_cycle_and_dispatch.md R83). -/
def step (s : State) : Host.Outcome State Fault Refusal := Sys2Proof.Machine.engineStep s

/-- `s` with the instruction of the table word stored at the PC of the next fetch (log entry 5). -/
def State.withFetchWord (s : State) (nbits w : Nat) : State := Sys2Proof.Machine.placeTableWord s nbits w

end Sys2Proof.Machine
end

