-- ==== Sys2Proof/Machine/HostPort.lean ====
section
/-! DEFINITION. The host's transactions (spec 00_scope.md R11, 70_reset_and_hazards.md R144) and what the Loader does to
memory and Symbol Table (30_encoding.md R69, R70; 70_reset_and_hazards.md R135). They are moves of the host between
steps of the engine, not steps. -/

namespace Sys2Proof.Machine

/-- An action that is allowed only while no run is in progress (R144, 93_implementation_defined.md U16). -/
def betweenRuns (s : State) (r : Result) : Result := if s.running then .refused .hostDuringRun else r

/-- `HostWrite(a, v)`: performs `MemWrite(a, 1, v)` (R11), device arm and growth included. A write that `MemWrite`
rejects is refused and changes nothing (log entry 13). -/
def hostWrite (a : Word) (v : Value) (s : State) : Result :=
  betweenRuns s <|
    match memWrite (.int a) v s with
    | .ok s' => .next s'
    | .error _ => .refused .hostWriteOutOfRange

/-- `HostBind(s, n)`: `SYM[s] <- Int(n)` (R11), for a name that has a slot and is not reserved (log entry 13). -/
def hostBind (n : SymName) (z : Word) (s : State) : Result :=
  betweenRuns s <|
    if n = nameIn ∨ n = nameOut then .refused .reservedName
    else if s.params.hasSlot n.toNat then .next (symBind s n (.int z))
    else .refused .noSuchSlot

/-- `Run`, its first part: the run-start reset (R133). The cycles that follow are steps of the engine. -/
def hostRun (s : State) : Result := betweenRuns s (.next (runStartReset s))

/-- `DIAG`: sets the diagnostics mode (R11, R30, R144). -/
def hostSetDiag (d : Bool) (s : State) : Result := betweenRuns s (.next (s.setDiag d))

/-- The device comes to have one more value to supply (`DevIn` of R11; R29, R126). It may arrive at any time (R144). -/
def supplyInput (v : DeviceValue) (s : State) : State := s.setInQ (s.inQ ++ [v])

/-- The transactions of R11 other than `Construct` (which is `State.construct`) and `DevOut` (which is `devOut`). -/
inductive Transaction where
  | write (a : Word) (v : Value)
  | bind (n : SymName) (z : Word)
  | run
  | setDiag (d : Bool)
  | supply (v : DeviceValue)
  | observe
deriving DecidableEq, Repr

/-- What a transaction does. `Observe` is read-only (R11, R128). -/
def transact (t : Transaction) (s : State) : Result :=
  match t with
  | .write a v => hostWrite a v s
  | .bind n z => hostBind n z s
  | .run => hostRun s
  | .setDiag d => hostSetDiag d s
  | .supply v => .next (supplyInput v s)
  | .observe => .next s

/-- A source line that the Loader accepted: its label, and the record it is encoded as. An unknown mnemonic has opcode
0x00 (R63, R70). -/
structure SourceLine where
  label : Option SymName
  opcode : Opcode
  operand : Operand
deriving DecidableEq, Repr

/-- One accepted line: first `HostBind(label, k)` if it has a label, then `HostWrite(k, Instr(m, o))` (R135). A label
already bound is refused (R71 e, U17; log entry 14). -/
def loadLine (k : Nat) (l : SourceLine) (s : State) : Result :=
  if intMax < (k : Int) then .refused .hostWriteOutOfRange
  else
    let record : State → Result := hostWrite (BitVec.ofNat 64 k) (.instr l.opcode l.operand)
    match l.label with
    | none => record s
    | some n =>
      if (symLookup s n).isSome ∧ n ≠ nameIn ∧ n ≠ nameOut then betweenRuns s (.refused .labelBoundTwice)
      else andThen (hostBind n (BitVec.ofNat 64 k) s) record

/-- The single forward pass from address `k` on; `none` is a line that is blank, a comment or malformed, which is
skipped and takes no address (R68, R69). -/
def loadLines : Nat → List (Option SourceLine) → State → Result
  | _, [], s => .next s
  | k, none :: ls, s => loadLines k ls s
  | k, some l :: ls, s => andThen (loadLine k l s) (loadLines (k + 1) ls)

/-- The Loader's pass: addresses count 1, 2, 3, ... over accepted lines (R70, R135). -/
def loadProgram (ls : List (Option SourceLine)) (s : State) : Result := loadLines 1 ls s

end Sys2Proof.Machine
end

