-- ==== Sys2Proof/Safety.lean ====
section
/-! DEFINITION. What claims say about states and runs: the invariants of every reachable state (spec 10_state.md R33),
reachability itself, and how a run has ended (70_reset_and_hazards.md R138). -/

namespace Sys2Proof.Machine

/-- `v` is `Int(n)` for some `n`. -/
def isInt (v : Value) : Bool :=
  match v with
  | .int _ => true
  | .unset => false
  | .name _ => false
  | .instr _ _ => false

/-- The invariants of R33, with the canonical forms of the model and the meaning of RUNNING and `blocked`. -/
structure State.Inv (s : State) : Prop where
  /-- R33 (1): PC is `Int(n)`. -/
  pc_int : isInt s.pc = true
  /-- R33 (2): AR is `Unset` or `Int(n)`. -/
  ar_address : s.ar = .unset ∨ isInt s.ar = true
  /-- R33 (3): every bound SYM entry is `Int(n)`. -/
  sym_int : ∀ e ∈ s.sym, isInt e.2 = true
  /-- R33 (4): the two reserved names are bound to `Int(0)`. -/
  name_in : symLookup s nameIn = some (.int deviceAddr)
  name_out : symLookup s nameOut = some (.int deviceAddr)
  /-- R33 (5): cell 0 is `Unset`. -/
  cell_zero : s.mem.cell 0 = .unset
  /-- The canonical form of memory. -/
  mem_wf : s.mem.wf = true
  /-- SYM has unique keys (R26), rising. -/
  sym_sorted : tableSorted s.sym = true
  /-- R33 (7): FAULT is not `None` only if `PC = Int(0)`. -/
  fault_pc : s.fault ≠ none → s.pc = .int 0
  /-- A run in progress has `PC != Int(0)` (R73, R138). -/
  running_pc : s.running = true → s.pc ≠ .int 0
  /-- Only a run in progress waits for input (R129). -/
  blocked_running : s.blocked = true → s.running = true

/-- The states that `Construct`, steps of the engine and transactions of the host lead to (R33). -/
inductive Reachable : State → Prop where
  | construct (p : Params) (h : p.wf = true) : Reachable (State.construct p)
  | step {s t : State} (hs : Reachable s) (h : Sys2Proof.Machine.step s = .next t) : Reachable t
  | transact {s t : State} (x : Transaction) (hs : Reachable s)
      (h : Sys2Proof.Machine.transact x s = .next t) : Reachable t

/-- `Halted` (R11, R27). -/
def State.halted (s : State) : Bool := !s.running

/-- The run ended normally: by `hlt` or a branch to 0 (R138). -/
def State.endedNormally (s : State) : Bool := s.halted && decide (s.pc = .int 0) && decide (s.fault = none)

/-- The run ended by failure (R138). -/
def State.endedByFailure (s : State) : Bool := s.halted && decide (s.pc = .int 0) && decide (s.fault ≠ none)

/-- A safe run never meets a dispatch failure. -/
def State.unfailed (s : State) : Bool := decide (s.fault = none)

/-- Does an instruction, executed in `s`, take input from the device: is its operand an address that resolves to 0, and
does its handler read it (10_state.md R23, the device column)? -/
def readsDevice (i : Instr) (s : State) : Bool :=
  match i with
  | .add o => decide (resolve o s = .ok (.int deviceAddr))
  | .sub o => decide (resolve o s = .ok (.int deviceAddr))
  | .mlt o => decide (resolve o s = .ok (.int deviceAddr))
  | .div o => decide (resolve o s = .ok (.int deviceAddr))
  | .lda o => decide (resolve o s = .ok (.int deviceAddr))
  | .bri o => decide (resolve o s = .ok (.int deviceAddr))
  | .set _ => false
  | .neg _ => false
  | .inc _ => false
  | .dec _ => false
  | .sta _ => false
  | .br _ => false
  | .brp _ => false
  | .brz _ => false
  | .brs _ => false
  | .hlt _ => false

end Sys2Proof.Machine
end

