-- ==== Sys2Proof/Certificates/Slice0/Obligations.lean ====
section
/-! DEFINITION. The statements for the provers, in the order encodings, reset and host, operands and memory, results of
instructions, steps, frames, rules about the whole machine. A rule of the spec that is marked there as its own decision
or derivation is cited by section, not by number. -/

open Sys2Proof Sys2Proof.Machine

/-! ### Encodings -/

/-- The words that 30_encoding.md section 2 writes out, with rows E1, E2, E11, E12 and E14 to E18 of 95_test_vectors.md.
The spec says only NoHandler and refused; which error says so is the model's name for it (log entry 15). -/
def Obligations.WordsOfTheSpecDecodeAsWritten : Prop :=
  decodeCell 0x00000000000000000000 = .ok .unset ∧
  decodeCell 0x10000000000000000005 = .ok (.int 5) ∧
  decodeCell 0x1000FFFFFFFFFFFFFFF9 = .ok (.int (-7)) ∧
  decodeCell 0x20000000000000000002 = .ok (.name 2) ∧
  decode 0x31010000000000000005 = .ok (.set (.lit 5)) ∧
  decode 0x3101FFFFFFFFFFFFFFF9 = .ok (.set (.lit (-7))) ∧
  decode 0x3102000000000000000A = .ok (.add (.lit 10)) ∧
  decode 0x310A000000000000000A = .ok (.sta (.lit 10)) ∧
  decode 0x3109000000000000000A = .ok (.lda (.lit 10)) ∧
  decode 0x320B0000000000000002 = .ok (.br (.sym 2)) ∧
  decode 0x30070000000000000000 = .ok (.inc .absent) ∧
  decode 0x30100000000000000000 = .ok (.hlt .absent) ∧
  decode 0x31060000000000000063 = .ok (.neg (.lit 99)) ∧
  decode 0x30000000000000000000 = .error .noHandler ∧
  decode 0x30FF0000000000000000 = .error .noHandler ∧
  decode 0x00000000000000000000 = .error .notAnInstruction ∧
  decode 0x10000000000000000005 = .error .notAnInstruction ∧
  decodeCell 0x40000000000000000000 = .error .illegalTag ∧
  decodeCell 0x33010000000000000000 = .error .illegalOperandKind ∧
  decodeCell 0x10010000000000000005 = .error .opcodeNotZero ∧
  decodeCell 0x30100000000000000001 = .error .payloadNotZero

/-- Decoding what the encoder writes gives back every instruction, with every operand. -/
def Obligations.DecodeOfEncodeIsTheInstruction : Prop :=
  ∀ i : Instr, decode (encode i) = .ok i

/-- "Rules R57 and R58 map the legal words one-to-one" onto the Values (30_encoding.md section 2, D16). -/
def Obligations.LegalWordsAndValuesAreInBijection : Prop :=
  (∀ v : Value, decodeCell (encodeCell v) = .ok v) ∧
  (∀ (w : CellWord) (v : Value), decodeCell w = .ok v → encodeCell v = w)

/-- A word is legal exactly if its tag is 0 to 3, its must-be-zero fields are zero and, for tag 3, `OPK` is 0, 1 or 2
(30_encoding.md section 2, D3 and D16). -/
def Obligations.LegalWordsAreExactlyThoseOfTheLayout : Prop :=
  ∀ w : CellWord,
    (∃ v, decodeCell w = .ok v) ↔
      ((tagOf w).toNat ≤ 3 ∧
       (tagOf w ≠ 3 → opkOf w = 0 ∧ opcOf w = 0) ∧
       (tagOf w = 3 → (opkOf w).toNat ≤ 2) ∧
       (tagOf w = 0 ∨ (tagOf w = 3 ∧ opkOf w = 0) → opdOf w = 0))

/-- A legal word is an instruction of a row of the opcode table exactly if the row's mask and pattern say so
(30_encoding.md section 3, D4). -/
def Obligations.TableRowSelectsExactlyItsInstruction : Prop :=
  ∀ (w : CellWord) (v : Value), decodeCell w = .ok v → ∀ row ∈ opcodeTable,
    ((∃ i, decode w = .ok i ∧ i.mnemonic = row.mnemonic) ↔ w &&& row.mask = row.pattern)

/-! ### Reset and host -/

/-- `Construct` (70_reset_and_hazards.md section 1, D15); IN_Q empty, DIAG false and `blocked` false are the model's
choices (log entries 8, 9 and 7). -/
def Obligations.ConstructedMachineIsEmpty : Prop :=
  ∀ (p : Params), p.wf = true →
    (State.construct p).pc = .int 1 ∧ (State.construct p).ar = .unset ∧ (State.construct p).ir = .unset ∧
    (State.construct p).acc = .unset ∧ (State.construct p).b = .unset ∧ (State.construct p).mem.len = 0 ∧
    (∀ n : Nat, (State.construct p).mem.cell n = .unset) ∧
    (∀ n : SymName, symLookup (State.construct p) n = if n = 0 ∨ n = 1 then some (.int 0) else none) ∧
    (State.construct p).running = false ∧ (State.construct p).fault = none ∧ (State.construct p).outLog = [] ∧
    (State.construct p).inQ = [] ∧ (State.construct p).diag = false ∧ (State.construct p).blocked = false

/-- The run-start reset writes the registers, FAULT and RUNNING, and nothing else (block R133, D14); that it also ends
a wait is the model's (log entry 7), as is taking the machine after it as the state after reset (log entry 5). -/
def Obligations.RunStartResetsRegistersAndKeepsTheRest : Prop :=
  (∀ s : State, s.running = false →
    hostRun s = .next { s with pc := .int 1, ar := .unset, ir := .unset, acc := .unset, b := .unset, fault := none,
                               running := true, blocked := false }) ∧
  hostRun (State.construct Params.unbounded) = .next State.reset

/-- While a run is in progress the host may observe and feed the device, and nothing else
(70_reset_and_hazards.md section 6, D31). -/
def Obligations.HostMayOnlyObserveAndFeedDuringARun : Prop :=
  ∀ s : State, s.running = true →
    (∀ a v, transact (.write a v) s = .refused .hostDuringRun) ∧
    (∀ n z, transact (.bind n z) s = .refused .hostDuringRun) ∧
    transact .run s = .refused .hostDuringRun ∧
    (∀ d, transact (.setDiag d) s = .refused .hostDuringRun) ∧
    transact .observe s = .next s ∧
    (∀ d, transact (.supply d) s = .next { s with inQ := s.inQ ++ [d] })

/-- Between runs `HostWrite` is `MemWrite` and `HostBind` binds one name (00_scope.md section 7); that a rejected write,
a reserved name and a name without a slot are refused is the model's (log entry 13). -/
def Obligations.HostWritesAndBindsBetweenRuns : Prop :=
  ∀ s : State, s.running = false →
    (∀ a v t, memWrite (.int a) v s = .ok t → transact (.write a v) s = .next t) ∧
    (∀ a v c, memWrite (.int a) v s = .error c → transact (.write a v) s = .refused .hostWriteOutOfRange) ∧
    (∀ n z, n ≠ nameIn → n ≠ nameOut → s.params.hasSlot n.toNat = true →
      ∃ t, transact (.bind n z) s = .next t ∧ symLookup t n = some (.int z) ∧
        (∀ k, k ≠ n → symLookup t k = symLookup s k) ∧ { t with sym := s.sym } = s) ∧
    (∀ n z, n = nameIn ∨ n = nameOut → transact (.bind n z) s = .refused .reservedName) ∧
    (∀ n z, n ≠ nameIn → n ≠ nameOut → s.params.hasSlot n.toNat = false →
      transact (.bind n z) s = .refused .noSuchSlot)

/-- The Loader's pass leaves the record of the `j`-th accepted line in cell `j + 1`, whatever lines were skipped between,
and binds its label to that address (30_encoding.md section 4, 70_reset_and_hazards.md section 2). -/
def Obligations.LoaderPlacesAcceptedLinesAtSuccessiveAddresses : Prop :=
  ∀ (ls : List (Option SourceLine)) (s t : State), loadProgram ls s = .next t →
    ∀ (j : Nat) (l : SourceLine), (ls.filterMap id)[j]? = some l →
      t.mem.read (j + 1 : Nat) = .instr l.opcode l.operand ∧
      ∀ n, l.label = some n → symLookup t n = some (.int (BitVec.ofNat 64 (j + 1)))

/-! ### Operands and memory -/

/-- `resolve` (20_memory.md R35), token by token, and of the Values that spell the same tokens. -/
def Obligations.ResolveTurnsTokensIntoAddresses : Prop :=
  ∀ s : State,
    (∀ n v, symLookup s n = some v → resolve (.sym n) s = .ok v ∧ resolveValue (.name n) s = .ok v) ∧
    (∀ n, symLookup s n = none →
      resolve (.sym n) s = .error .unresolvedAddress ∧ resolveValue (.name n) s = .error .unresolvedAddress) ∧
    (∀ z, resolve (.lit z) s = .ok (.int z) ∧ resolveValue (.int z) s = .ok (.int z)) ∧
    resolve .absent s = .error .unresolvedAddress ∧
    resolveValue .unset s = .error .unresolvedAddress ∧
    (∀ m o, resolveValue (.instr m o) s = .error .unresolvedAddress)

/-- `MemRead` (20_memory.md R37): its arms in order, and its only state change. `none` is the wait of the device arm. -/
def Obligations.MemReadTakesTheFirstArmThatApplies : Prop :=
  ∀ (a : Value) (s : State),
    (a = .int 0 → s.inQ = [] → memRead a s = none) ∧
    (∀ d q, a = .int 0 → s.inQ = d :: q → memRead a s = some (d.toValue, { s with inQ := q })) ∧
    (∀ n v, a = .name n → symLookup s n = some v → memRead a s = some (v, s)) ∧
    (∀ z : Word, a = .int z → z ≠ 0 → 0 ≤ z.toInt → z.toInt < s.mem.len →
      memRead a s = some (s.mem.cell z.toInt.toNat, s)) ∧
    (∀ z : Word, a = .int z → (z.toInt < 0 ∨ (z ≠ 0 ∧ s.mem.len ≤ z.toInt)) → memRead a s = some (.unset, s)) ∧
    (∀ n, a = .name n → symLookup s n = none → memRead a s = some (.unset, s)) ∧
    (a = .unset → memRead a s = some (.unset, s)) ∧
    (∀ m o, a = .instr m o → memRead a s = some (.unset, s))

/-- `MemWrite` (block R40 of 20_memory.md): its arms in order, the Value stored as it is, and the one failure, which
changes nothing (D6, D7). -/
def Obligations.MemWriteTakesTheFirstArmThatApplies : Prop :=
  ∀ (a v : Value) (s : State),
    (a = .int 0 → memWrite a v s = .ok { s with outLog := s.outLog ++ [v] }) ∧
    (∀ n w, a = .name n → symLookup s n = some w →
      ∃ t, memWrite a v s = .ok t ∧ symLookup t n = some v ∧ (∀ k, k ≠ n → symLookup t k = symLookup s k) ∧
        { t with sym := s.sym } = s) ∧
    (∀ n, a = .name n → symLookup s n = none → memWrite a v s = .error .addressOutOfRange) ∧
    (∀ z : Word, a = .int z → z ≠ 0 → 0 ≤ z.toInt →
      (z.toInt < s.mem.len ∨ s.params.hasCell z.toInt.toNat = true) →
      ∃ m : Memory, memWrite a v s = .ok { s with mem := m } ∧ m.read z.toInt = v ∧
        (∀ k : Int, k ≠ z.toInt → m.read k = s.mem.read k) ∧ m.len = max s.mem.len (z.toInt.toNat + 1)) ∧
    (∀ z : Word, a = .int z →
      (z.toInt < 0 ∨ (s.mem.len ≤ z.toInt ∧ z ≠ 0 ∧ s.params.hasCell z.toInt.toNat = false)) →
      memWrite a v s = .error .addressOutOfRange) ∧
    (a = .unset → memWrite a v s = .error .addressOutOfRange) ∧
    (∀ m o, a = .instr m o → memWrite a v s = .error .addressOutOfRange)

/-- The growth arm (20_memory.md R43), and the first write after `Construct`, to address 1. -/
def Obligations.WriteBeyondTheEndGrowsMemoryWithUnsetCells : Prop :=
  (∀ (n : Word) (v : Value) (s : State), n ≠ 0 → s.mem.len ≤ n.toInt → s.params.hasCell n.toInt.toNat = true →
    ∃ m : Memory, memWrite (.int n) v s = .ok { s with mem := m } ∧
      m.len = n.toInt.toNat + 1 ∧
      (∀ k : Nat, s.mem.len ≤ k → k < n.toInt.toNat → m.read k = .unset) ∧
      m.read n.toInt = v ∧
      (∀ k : Nat, k < s.mem.len → m.read k = s.mem.read k)) ∧
  (∀ (p : Params) (v : Value), p.hasCell 1 = true →
    ∃ m : Memory, memWrite (.int 1) v (State.construct p) = .ok { State.construct p with mem := m } ∧
      m.len = 2 ∧ m.read 0 = .unset ∧ m.read 1 = v)

/-- The growth in one move is the loop of block R40: append one unset cell while MLEN is not beyond `n`, then
overwrite. -/
def Obligations.GrowthIsTheCellByCellLoop : Prop :=
  ∀ (m : Memory) (n : Nat) (v : Value), m.wf = true → m.len ≤ n →
    m.grow n v = (m.appendUnsets (n + 1 - m.len)).overwrite n v

/-- Memory as a total function (20_memory.md section 4): after an accepted write to an address other than 0, that
address reads the Value written and every other what it read before. -/
def Obligations.ReadsGiveTheLastValueWritten : Prop :=
  ∀ (n : Word) (v : Value) (s t : State), n ≠ 0 → memWrite (.int n) v s = .ok t →
    ∀ k : Word, k ≠ 0 →
      memRead (.int k) t = some (if k = n then v else memPeek (.int k) s, t) ∧
      memRead (.int k) s = some (memPeek (.int k) s, s)

/-- Registers that were never written hold `Unset`; it is copied by `lda`, `sta` and output, and rejected by `toInt`,
`resolve` and the decoder (70_reset_and_hazards.md R142). -/
def Obligations.UnsetIsCopiedButNeverUsedAsANumber : Prop :=
  (∀ s : State, ((runStartReset s).ar = .unset ∧ (runStartReset s).ir = .unset) ∧
    (runStartReset s).acc = .unset ∧ (runStartReset s).b = .unset) ∧
  toInt .unset = .error .nonNumericOperand ∧
  (∀ s : State, resolveValue .unset s = .error .unresolvedAddress) ∧
  (∀ s : State, s.ir = .unset → execute s = .next { s with fault := some .unknownMnemonic, pc := .int 0 }) ∧
  (∀ (o : Operand) (s : State) (a : Value), resolve o s = .ok a → a ≠ .int 0 → memPeek a s = .unset →
    exec (.lda o) s = .next { s with ar := a, acc := .unset }) ∧
  (∀ (o : Operand) (s t : State) (z : Word), resolve o s = .ok (.int z) → z ≠ 0 → s.acc = .unset →
    memWrite (.int z) .unset s = .ok t →
    exec (.sta o) s = .next { t with ar := .int z } ∧ memPeek (.int z) t = .unset) ∧
  (∀ (o : Operand) (s : State), resolve o s = .ok (.int 0) → s.acc = .unset →
    exec (.sta o) s = .next { s with ar := .int 0, outLog := s.outLog ++ [.unset] })

/-! ### Results of the instructions -/

/-- `set` (block R88): every literal is loaded; a name or no operand is a failure (D10). -/
def Obligations.SetLoadsTheLiteral : Prop :=
  ∀ s : State,
    (∀ z, exec (.set (.lit z)) s = .next { s with acc := .int z }) ∧
    (∀ n, exec (.set (.sym n)) s = .next { s with fault := some .nonNumericOperand, pc := .int 0 }) ∧
    exec (.set .absent) s = .next { s with fault := some .nonNumericOperand, pc := .int 0 }

/-- `add`, `sub` and `mlt` (blocks R89 to R91): the exact result, ACC the left operand, the value read in B. `s1` is the
state after the read, which differs from `s` in IN_Q at most. A result in range is the integer of some word `r`. -/
def Obligations.AddSubMltWriteTheExactResult : Prop :=
  ∀ (o : Operand) (s s1 : State) (a : Value) (x y r : Word),
    resolve o s = .ok a → memRead a s = some (.int y, s1) → s.acc = .int x →
    (r.toInt = x.toInt + y.toInt → exec (.add o) s = .next { s1 with b := .int y, acc := .int r }) ∧
    (r.toInt = x.toInt - y.toInt → exec (.sub o) s = .next { s1 with b := .int y, acc := .int r }) ∧
    (r.toInt = x.toInt * y.toInt → exec (.mlt o) s = .next { s1 with b := .int y, acc := .int r })

/-- `div` (block R92; 41_set_and_arithmetic.md R93): ACC takes the unique `q` with `x = q*y + m` where `m` has the sign of
`y` or is 0 and `|m| < |y|`; it is the quotient truncated toward zero, less one where the signs differ and `y` does not
divide `x`. -/
def Obligations.DivWritesTheFloorQuotient : Prop :=
  ∀ (o : Operand) (s s1 : State) (a : Value) (x y : Word),
    resolve o s = .ok a → memRead a s = some (.int y, s1) → s.acc = .int x →
    y.toInt ≠ 0 → ¬ (x.toInt = intMin ∧ y.toInt = -1) →
    ∃ r : Word,
      exec (.div o) s = .next { s1 with b := .int y, acc := .int r } ∧
      (∃ m : Int, x.toInt = r.toInt * y.toInt + m ∧ ((0 ≤ m ∧ m < y.toInt) ∨ (y.toInt < m ∧ m ≤ 0))) ∧
      (∀ q m : Int, x.toInt = q * y.toInt + m → (0 ≤ m ∧ m < y.toInt) ∨ (y.toInt < m ∧ m ≤ 0) → q = r.toInt) ∧
      r.toInt = if (0 ≤ x.toInt ↔ 0 ≤ y.toInt) ∨ y.toInt ∣ x.toInt then x.toInt.tdiv y.toInt
        else x.toInt.tdiv y.toInt - 1

/-- A zero divisor, and the one quotient out of range (block R92, D8 and D2): ACC is kept, B holds the divisor. -/
def Obligations.DivFailsByZeroAndAtTheEndOfTheRange : Prop :=
  ∀ (o : Operand) (s s1 : State) (a : Value) (x y : Word),
    resolve o s = .ok a → memRead a s = some (.int y, s1) → s.acc = .int x →
    (y.toInt = 0 →
      exec (.div o) s = .next { s1 with b := .int y, fault := some .divideByZero, pc := .int 0 }) ∧
    (x.toInt = intMin → y.toInt = -1 →
      exec (.div o) s = .next { s1 with b := .int y, fault := some .integerOverflow, pc := .int 0 })

/-- The range law (41_set_and_arithmetic.md section 1, D2): an exact result outside `INT_MIN .. INT_MAX` is a failure
that keeps ACC, and B where the instruction has no operand. -/
def Obligations.ResultsOutOfRangeRaiseIntegerOverflow : Prop :=
  (∀ (o : Operand) (s s1 : State) (a : Value) (x y : Word),
    resolve o s = .ok a → memRead a s = some (.int y, s1) → s.acc = .int x →
    (x.toInt + y.toInt < intMin ∨ intMax < x.toInt + y.toInt →
      exec (.add o) s = .next { s1 with b := .int y, fault := some .integerOverflow, pc := .int 0 }) ∧
    (x.toInt - y.toInt < intMin ∨ intMax < x.toInt - y.toInt →
      exec (.sub o) s = .next { s1 with b := .int y, fault := some .integerOverflow, pc := .int 0 }) ∧
    (x.toInt * y.toInt < intMin ∨ intMax < x.toInt * y.toInt →
      exec (.mlt o) s = .next { s1 with b := .int y, fault := some .integerOverflow, pc := .int 0 })) ∧
  (∀ (o : Operand) (s : State) (x : Word), s.acc = .int x →
    (x.toInt = intMin → exec (.neg o) s = .next { s with fault := some .integerOverflow, pc := .int 0 }) ∧
    (x.toInt = intMax → exec (.inc o) s = .next { s with fault := some .integerOverflow, pc := .int 0 }) ∧
    (x.toInt = intMin → exec (.dec o) s = .next { s with fault := some .integerOverflow, pc := .int 0 }))

/-- `neg`, `inc` and `dec` (blocks R94 to R96), with an operand that is ignored (D11). -/
def Obligations.NegIncDecWriteTheExactResult : Prop :=
  ∀ (o : Operand) (s : State) (x r : Word), s.acc = .int x →
    (r.toInt = -x.toInt → exec (.neg o) s = .next { s with acc := .int r }) ∧
    (r.toInt = x.toInt + 1 → exec (.inc o) s = .next { s with acc := .int r }) ∧
    (r.toInt = x.toInt - 1 → exec (.dec o) s = .next { s with acc := .int r })

/-- What cannot be coerced is a failure (block R82; 41_set_and_arithmetic.md section 1, D9, D12): an ACC or a value read
that is no integer for the two-operand instructions, which keep the value read in B, and an ACC that is none for
`neg`, `inc`, `dec`, `brp` and `brz`. -/
def Obligations.UncoercibleValuesRaiseNonNumericOperand : Prop :=
  (∀ (o : Operand) (s s1 : State) (a v : Value) (i : Instr),
    i ∈ [Instr.add o, .sub o, .mlt o, .div o] →
    resolve o s = .ok a → memRead a s = some (v, s1) → isInt s.acc = false ∨ isInt v = false →
    exec i s = .next { s1 with b := v, fault := some .nonNumericOperand, pc := .int 0 }) ∧
  (∀ (o : Operand) (s : State) (i : Instr),
    i ∈ [Instr.neg o, .inc o, .dec o, .brp o, .brz o] → isInt s.acc = false →
    exec i s = .next { s with fault := some .nonNumericOperand, pc := .int 0 })

/-- `lda` (42_data_movement.md R99): AR takes the address and ACC the whole Value, from a cell or from the device. -/
def Obligations.LdaCopiesTheWholeValue : Prop :=
  ∀ (o : Operand) (s : State) (a : Value), resolve o s = .ok a →
    (a ≠ .int 0 → exec (.lda o) s = .next { s with ar := a, acc := memPeek a s }) ∧
    (∀ d q, a = .int 0 → s.inQ = d :: q →
      exec (.lda o) s = .next { s with ar := a, acc := d.toValue, inQ := q })

/-- `sta` (block R100): AR takes the address and ACC is written as it is; AR stays written when the write is rejected
(D12). -/
def Obligations.StaStoresTheAccumulator : Prop :=
  ∀ (o : Operand) (s : State) (a : Value), resolve o s = .ok a →
    (∀ t, memWrite a s.acc s = .ok t → exec (.sta o) s = .next { t with ar := a }) ∧
    (∀ c, memWrite a s.acc s = .error c →
      exec (.sta o) s = .next { s with ar := a, fault := some .addressOutOfRange, pc := .int 0 })

/-- `br` (43_control_transfer.md R104): PC takes the address, negative or 0 included, and nothing else changes. -/
def Obligations.BrLoadsTheTarget : Prop :=
  ∀ (o : Operand) (s : State) (a : Value), resolve o s = .ok a → exec (.br o) s = .next { s with pc := a }

/-- The three sign cases of the conditional branches (43_control_transfer.md section 2): taken, PC takes the address. That
a branch that is not taken does nothing whatever its operand, unbound and absent included, is the spec's decision
D27. -/
def Obligations.BrpAndBrzBranchOnTheSignOfTheAccumulator : Prop :=
  ∀ (o : Operand) (s : State) (x : Word), s.acc = .int x →
    (0 < x.toInt →
      (∀ a, resolve o s = .ok a → exec (.brp o) s = .next { s with pc := a }) ∧ exec (.brz o) s = .next s) ∧
    (x.toInt = 0 →
      exec (.brp o) s = .next s ∧ (∀ a, resolve o s = .ok a → exec (.brz o) s = .next { s with pc := a })) ∧
    (x.toInt < 0 → exec (.brp o) s = .next s ∧ exec (.brz o) s = .next s)

/-- `bri` (43_control_transfer.md R108): AR takes the address, PC what the cell's content, or the device's next value,
resolves to; content that resolves to nothing is a failure with AR written. -/
def Obligations.BriJumpsThroughTheCell : Prop :=
  ∀ (o : Operand) (s s1 : State) (a v : Value), resolve o s = .ok a → memRead a s = some (v, s1) →
    (∀ p, resolveValue v s = .ok p → exec (.bri o) s = .next { s1 with ar := a, pc := p }) ∧
    (∀ c, resolveValue v s = .error c →
      exec (.bri o) s = .next { s1 with ar := a, fault := some .unresolvedAddress, pc := .int 0 })

/-- `brs` (block R109, D26): the cell takes PC, PC the address plus 1; the failures leave memory alone. An operand that
resolves to no integer, in states that no run reaches, is the failure of a write address (60_exceptions.md section 1, the
row of code 6; for a name as address log entry 11). -/
def Obligations.BrsSavesThePcAndEntersPastTheCell : Prop :=
  (∀ (o : Operand) (s : State) (n : Word), resolve o s = .ok (.int n) →
    (∀ t r, r.toInt = n.toInt + 1 → memWrite (.int n) s.pc s = .ok t →
      exec (.brs o) s = .next { t with pc := .int r }) ∧
    (n.toInt = intMax → exec (.brs o) s = .next { s with fault := some .integerOverflow, pc := .int 0 }) ∧
    (∀ c, n.toInt ≠ intMax → memWrite (.int n) s.pc s = .error c →
      exec (.brs o) s = .next { s with fault := some .addressOutOfRange, pc := .int 0 })) ∧
  (∀ (o : Operand) (s : State) (a : Value), resolve o s = .ok a → isInt a = false →
    exec (.brs o) s = .next { s with fault := some .addressOutOfRange, pc := .int 0 })

/-- `hlt` (block R111), with an operand that is ignored (D11). -/
def Obligations.HltZeroesThePc : Prop :=
  ∀ (o : Operand) (s : State), exec (.hlt o) s = .next { s with pc := .int 0 }

/-- An operand that is absent or an unbound name is a failure that changes nothing but FAULT and PC, for the nine
instructions that always resolve it and for the two that resolve it only when taken (60_exceptions.md section 1,
D27, D30). -/
def Obligations.UnresolvableOperandsRaiseUnresolvedAddress : Prop :=
  ∀ (o : Operand) (s : State), (o = .absent ∨ ∃ n, o = .sym n ∧ symLookup s n = none) →
    (∀ i : Instr,
      i ∈ [Instr.add o, .sub o, .mlt o, .div o, .lda o, .sta o, .br o, .bri o, .brs o] →
      exec i s = .next { s with fault := some .unresolvedAddress, pc := .int 0 }) ∧
    (∀ x : Word, s.acc = .int x → 0 < x.toInt →
      exec (.brp o) s = .next { s with fault := some .unresolvedAddress, pc := .int 0 }) ∧
    (∀ x : Word, s.acc = .int x → x.toInt = 0 →
      exec (.brz o) s = .next { s with fault := some .unresolvedAddress, pc := .int 0 })

/-- A read of address 0 with no input leaves the engine inside the Execute phase, with what precedes the read done: AR
for `lda` and `bri`, nothing for the arithmetic instructions (60_exceptions.md section 6, D32; the `blocked` bit is the
model's, log entry 7). -/
def Obligations.ReadingTheDeviceWithoutInputWaits : Prop :=
  ∀ (o : Operand) (s : State), resolve o s = .ok (.int 0) → s.inQ = [] →
    (∀ i : Instr, i ∈ [Instr.add o, .sub o, .mlt o, .div o] → exec i s = .next { s with blocked := true }) ∧
    (∀ i : Instr, i ∈ [Instr.lda o, .bri o] → exec i s = .next { s with ar := .int 0, blocked := true })

/-! ### Steps -/

/-- A step fetches the cell at PC into IR and PC into AR, increments PC, and executes the instruction that the cell's
word decodes to, which answers a next state; then the loop test ends the run if PC is 0. That there is a next state also
where a device read finds no input (R83: no step is enabled) is the model's choice (log entry 7), and where the operand
of `brs` resolves to a bound name its reading of the row of code 6 in 60_exceptions.md section 1 (log entry 11). -/
def Obligations.StepRunsTheDecodedInstruction : Prop :=
  ∀ (s : State) (p q : Word) (w : CellWord) (v : Value) (i : Instr),
    s.running = true → s.blocked = false → s.pc = .int p → p ≠ 0 → q.toInt = p.toInt + 1 →
    s.mem.read p.toInt = v → decodeCell w = .ok v → decode w = .ok i →
    ∃ t, exec i { s with ar := .int p, ir := v, pc := .int q } = .next t ∧
      step s = .next (if t.pc = .int 0 then { t with running := false } else t)

/-- A cell that holds no instruction record, or one without a handler, ends the run with `UnknownMnemonic`; the cycle
has changed AR, IR and PC only (60_exceptions.md section 1). That the opcodes without a handler are exactly 0x00 and 0x11
to 0xFF is the spec's decision (30_encoding.md section 3, D4, D23). -/
def Obligations.ExecutingANonInstructionRaisesUnknownMnemonic : Prop :=
  (∀ (s : State) (p q : Word),
    s.running = true → s.blocked = false → s.pc = .int p → p ≠ 0 → q.toInt = p.toInt + 1 →
    (∀ m o, s.mem.read p.toInt = .instr m o → m = 0x00 ∨ 0x11 ≤ m.toNat) →
    step s = .next { s with ar := .int p, ir := s.mem.read p.toInt, pc := .int 0, fault := some .unknownMnemonic,
                            running := false }) ∧
  (∀ (m : Opcode) (o : Operand), (∃ i, decodeValue (.instr m o) = .ok i) ↔ ¬ (m = 0x00 ∨ 0x11 ≤ m.toNat))

/-- At `PC = INT_MAX` the increment fails and nothing is executed (40_cycle_and_dispatch.md section 1, D21). -/
def Obligations.IncrementPastTheRangeFailsBeforeExecute : Prop :=
  ∀ (s : State) (p : Word),
    s.running = true → s.blocked = false → s.pc = .int p → p.toInt = intMax →
    step s = .next { s with ar := .int p, ir := s.mem.read p.toInt, pc := .int 0, fault := some .integerOverflow,
                            running := false }

/-- Where the spec has no step, without a run or without the input that is waited for, the model's step leaves the state
as it is (40_cycle_and_dispatch.md section 4, 60_exceptions.md section 6; the model's form of it, log entries 6
and 7). -/
def Obligations.NoStepIsTakenWithoutARunOrWithoutInput : Prop :=
  (∀ s : State, s.running = false → step s = .next s) ∧
  (∀ s : State, s.running = true → s.blocked = true → s.inQ = [] → step s = .next s)

/-! ### Frames -/

/-- `set`, `neg`, `inc`, `dec` change ACC only, or fail and change FAULT and PC only. -/
def Obligations.OneRegisterInstructionsFrame : Prop :=
  ∀ (o : Operand) (i : Instr) (s t : State),
    i ∈ [Instr.set o, .neg o, .inc o, .dec o] → exec i s = .next t →
    t.ar = s.ar ∧ t.ir = s.ir ∧ t.b = s.b ∧ t.sym = s.sym ∧ t.inQ = s.inQ ∧ t.outLog = s.outLog ∧
    t.running = s.running ∧ t.diag = s.diag ∧ t.blocked = s.blocked ∧ t.params = s.params ∧
    t.mem.len = s.mem.len ∧ (∀ k : Int, t.mem.read k = s.mem.read k) ∧
    ((t.pc = s.pc ∧ t.fault = s.fault) ∨ (t.acc = s.acc ∧ t.pc = .int 0 ∧ t.fault ≠ none))

/-- `add`, `sub`, `mlt`, `div` change ACC and B only, and take one input if their address is the device; a failure
keeps ACC; a wait changes nothing else. -/
def Obligations.TwoOperandInstructionsFrame : Prop :=
  ∀ (o : Operand) (i : Instr) (s t : State),
    i ∈ [Instr.add o, .sub o, .mlt o, .div o] → exec i s = .next t →
    t.ar = s.ar ∧ t.ir = s.ir ∧ t.sym = s.sym ∧ t.outLog = s.outLog ∧ t.running = s.running ∧ t.diag = s.diag ∧
    t.params = s.params ∧ t.mem.len = s.mem.len ∧ (∀ k : Int, t.mem.read k = s.mem.read k) ∧
    ((t.pc = s.pc ∧ t.fault = s.fault) ∨ (t.acc = s.acc ∧ t.pc = .int 0 ∧ t.fault ≠ none)) ∧
    (t.inQ = s.inQ ∨ (resolve o s = .ok (.int 0) ∧ ∃ d, s.inQ = d :: t.inQ)) ∧
    (t.blocked = s.blocked ∨
      (resolve o s = .ok (.int 0) ∧ s.inQ = [] ∧ t.acc = s.acc ∧ t.b = s.b ∧ t.pc = s.pc ∧ t.fault = s.fault))

/-- `lda` and `bri` write AR; `lda` writes ACC, the branches and `hlt` PC; none of the six stores anything or writes
B. -/
def Obligations.LoadAndBranchInstructionsFrame : Prop :=
  ∀ (o : Operand) (i : Instr) (s t : State),
    i ∈ [Instr.lda o, .br o, .brp o, .brz o, .bri o, .hlt o] → exec i s = .next t →
    t.ir = s.ir ∧ t.b = s.b ∧ t.sym = s.sym ∧ t.outLog = s.outLog ∧ t.running = s.running ∧ t.diag = s.diag ∧
    t.params = s.params ∧ t.mem.len = s.mem.len ∧ (∀ k : Int, t.mem.read k = s.mem.read k) ∧
    (i ≠ .lda o → t.acc = s.acc) ∧
    (i = .lda o → (t.pc = s.pc ∧ t.fault = s.fault) ∨ (t.acc = s.acc ∧ t.pc = .int 0 ∧ t.fault ≠ none)) ∧
    (i ≠ .lda o → t.fault = s.fault ∨ (t.pc = .int 0 ∧ t.fault ≠ none)) ∧
    (i ≠ .lda o → i ≠ .bri o → t.ar = s.ar ∧ t.inQ = s.inQ ∧ t.blocked = s.blocked) ∧
    (t.ar = s.ar ∨ resolve o s = .ok t.ar) ∧
    (t.inQ = s.inQ ∨ (resolve o s = .ok (.int 0) ∧ ∃ d, s.inQ = d :: t.inQ)) ∧
    (t.blocked = s.blocked ∨ (resolve o s = .ok (.int 0) ∧ s.inQ = [] ∧ t.acc = s.acc ∧ t.pc = s.pc))

/-- `sta` and `brs` store to the one address their operand resolves to: no other cell reads differently, and the output
log grows only if that address is the device. `sta` writes AR and keeps PC, `brs` keeps AR; neither writes ACC or B. An
operand that resolves to no integer, in states that no run reaches, stores to no cell; that `brs` then keeps SYM follows
the row of code 6 in 60_exceptions.md section 1, for a bound name by the model's reading (log entry 11). -/
def Obligations.StoringInstructionsFrame : Prop :=
  ∀ (o : Operand) (i : Instr) (s t : State),
    i ∈ [Instr.sta o, .brs o] → exec i s = .next t →
    t.ir = s.ir ∧ t.acc = s.acc ∧ t.b = s.b ∧ t.inQ = s.inQ ∧ t.running = s.running ∧ t.diag = s.diag ∧
    t.blocked = s.blocked ∧ t.params = s.params ∧
    (i = .brs o → t.ar = s.ar) ∧ (t.ar = s.ar ∨ resolve o s = .ok t.ar) ∧
    (i = .sta o → t.pc = s.pc ∧ t.fault = s.fault ∨ (t.pc = .int 0 ∧ t.fault ≠ none)) ∧
    (t.fault = s.fault ∨ (t.pc = .int 0 ∧ t.fault ≠ none)) ∧
    (∀ c, resolve o s = .error c →
      t.mem.len = s.mem.len ∧ (∀ k : Int, t.mem.read k = s.mem.read k) ∧ t.outLog = s.outLog ∧ t.sym = s.sym) ∧
    (∀ n : Word, resolve o s = .ok (.int n) →
      t.sym = s.sym ∧ (∀ k : Int, k ≠ n.toInt ∨ n = 0 → t.mem.read k = s.mem.read k) ∧
      (n ≠ 0 → t.outLog = s.outLog) ∧ (n = 0 → t.mem.len = s.mem.len)) ∧
    (∀ a, resolve o s = .ok a → isInt a = false →
      t.mem.len = s.mem.len ∧ (∀ k : Int, t.mem.read k = s.mem.read k) ∧ t.outLog = s.outLog ∧
      (i = .brs o → t.sym = s.sym))

/-! ### Rules about the whole machine -/

/-- The invariants of 10_state.md section 5 hold right after reset and after `Construct`, whatever the parameters. -/
def Obligations.InvariantsHoldAtBothResets : Prop :=
  State.reset.Inv ∧ ∀ p : Params, p.wf = true → (State.construct p).Inv

/-- Every step keeps the invariants, from every state that has them. -/
def Obligations.EveryStepKeepsTheInvariants : Prop :=
  ∀ s t : State, s.Inv → step s = .next t → t.Inv

/-- Every transaction of the host keeps the invariants. -/
def Obligations.EveryTransactionKeepsTheInvariants : Prop :=
  ∀ (x : Transaction) (s t : State), s.Inv → transact x s = .next t → t.Inv

/-- The invariants of 10_state.md section 5 hold in every state that construction, transactions and steps lead to. -/
def Obligations.EveryReachableStateHasTheInvariants : Prop :=
  ∀ s : State, Reachable s → s.Inv

/-- The engine never stops for a reason of the model's: every instruction answers a next state in every state, and every
state with the invariants has a next state. Where no run is in progress, and where the engine waits without input, the
spec has no step: the next state there is the model's choice (log entries 6 and 7). That `brs` answers one where its
operand resolves to no integer follows the row of code 6 in 60_exceptions.md section 1, for a bound name by the model's
reading (log entry 11). -/
def Obligations.StepAlwaysAnswersANextState : Prop :=
  (∀ (i : Instr) (s : State), ∃ t, exec i s = .next t) ∧ (∀ s : State, s.Inv → ∃ t, step s = .next t)

/-- MLEN never decreases (10_state.md R25), by steps and by transactions alike. -/
def Obligations.MemoryNeverShrinks : Prop :=
  ∀ s t : State, (step s = .next t ∨ ∃ x, transact x s = .next t) → s.mem.len ≤ t.mem.len

/-- A step never changes the Symbol Table, DIAG or the parameters, and never adds to IN_Q or takes from OUT_LOG, in a
state with the invariants (10_state.md section 3; 20_memory.md section 4). -/
def Obligations.StepNeverChangesTheSymbolTable : Prop :=
  ∀ s t : State, s.Inv → step s = .next t →
    t.sym = s.sym ∧ t.diag = s.diag ∧ t.params = s.params ∧ t.inQ <:+ s.inQ ∧ s.outLog <+: t.outLog

/-- A failing instruction changes no memory, no binding, no ACC and emits nothing; PC is 0
(40_cycle_and_dispatch.md section 2, 60_exceptions.md section 3, D12). -/
def Obligations.FailingInstructionsKeepAccAndMemory : Prop :=
  ∀ (i : Instr) (s t : State) (c : Cause), exec i s = .next t → s.fault = none → t.fault = some c →
    t.acc = s.acc ∧ t.mem = s.mem ∧ t.sym = s.sym ∧ t.outLog = s.outLog ∧ t.ir = s.ir ∧ t.pc = .int 0

/-- Only `hlt`, a dispatch failure and a branch whose resolved target is 0 set PC to 0; such a branch, when taken, does
what `hlt` does, FAULT included, and the loop test then ends the run (40_cycle_and_dispatch.md R84). -/
def Obligations.OnlyHltFailureOrABranchToZeroSetsPcToZero : Prop :=
  (∀ (i : Instr) (s t : State), exec i s = .next t → s.pc ≠ .int 0 → t.pc = .int 0 →
    (∃ o, i = .hlt o) ∨ (∃ c u, t = dispatchFailure c u) ∨
    (∃ o, i ∈ [Instr.br o, .brp o, .brz o] ∧ resolve o s = .ok (.int 0)) ∨
    (∃ o a v s1, i = .bri o ∧ resolve o s = .ok a ∧ memRead a s = some (v, s1) ∧ resolveValue v s = .ok (.int 0))) ∧
  (∀ (o o' : Operand) (s : State), resolve o s = .ok (.int 0) →
    exec (.br o) s = exec (.hlt o') s ∧
    (∀ x : Word, s.acc = .int x → 0 < x.toInt → exec (.brp o) s = exec (.hlt o') s) ∧
    (∀ x : Word, s.acc = .int x → x.toInt = 0 → exec (.brz o) s = exec (.hlt o') s)) ∧
  (∀ (o o' : Operand) (s s1 : State) (a v : Value), resolve o s = .ok a → memRead a s = some (v, s1) →
    resolveValue v s = .ok (.int 0) → exec (.bri o) s = exec (.hlt o') { s1 with ar := a }) ∧
  (∀ (o : Operand) (s : State), ∃ t, exec (.hlt o) s = .next t ∧ t.fault = s.fault ∧
    loopTest t = { s with pc := .int 0, running := false })

/-- A run that has failed stays failed: FAULT keeps its first cause (10_state.md section 4, 60_exceptions.md
section 3). -/
def Obligations.FaultKeepsTheFirstCause : Prop :=
  ∀ s t : State, s.Inv → s.fault ≠ none → step s = .next t → t = s

/-- A step takes at most one value from the input and adds at most one to the output (20_memory.md section 5). -/
def Obligations.StepTakesAtMostOneInputAndGivesAtMostOneOutput : Prop :=
  ∀ s t : State, step s = .next t →
    (t.inQ = s.inQ ∨ ∃ d, s.inQ = d :: t.inQ) ∧ (t.outLog = s.outLog ∨ ∃ v, t.outLog = s.outLog ++ [v]) ∧
    (t.inQ = s.inQ ∨ t.outLog = s.outLog)

/-- The diagnostics mode has no effect on anything a step computes (10_state.md R30). -/
def Obligations.DiagnosticsModeHasNoEffect : Prop :=
  ∀ (s : State) (d : Bool), step (s.setDiag d) = andThen (step s) fun t => .next (t.setDiag d)

/-- An instruction that does not read the device learns nothing of the input: it does the same on any input and leaves
it as it is (10_state.md section 2, the device column). -/
def Obligations.InputIsSeenOnlyThroughAddressZero : Prop :=
  ∀ (i : Instr) (s : State) (q : List DeviceValue), readsDevice i s = false →
    exec i (s.setInQ q) = andThen (exec i s) fun t => .next (t.setInQ q)

/-- The round trip (42_data_movement.md section 4): after an accepted `sta` to a cell, `lda` of that address gives the
Value back, and the two-operand instructions read it into B. -/
def Obligations.StoreThenLoadGivesTheValueBack : Prop :=
  ∀ (o o' : Operand) (s t u : State) (z : Word), z ≠ 0 → resolve o s = .ok (.int z) →
    memWrite (.int z) s.acc s = .ok u → exec (.sta o) s = .next t → resolve o' t = .ok (.int z) →
    t.fault = s.fault ∧
    exec (.lda o') t = .next { t with ar := .int z, acc := s.acc } ∧
    (∀ (i : Instr) (r : State), i ∈ [Instr.add o', .sub o', .mlt o', .div o'] → exec i t = .next r → r.b = s.acc)

/-- Call and return (43_control_transfer.md section 3): a `bri` through the cell that `brs` wrote, in any later state
with the same memory and Symbol Table, resumes at the instruction after the `brs`. -/
def Obligations.ReturnResumesAfterTheCall : Prop :=
  ∀ (o : Operand) (s t u : State) (n k r : Word), n ≠ 0 → resolve o s = .ok (.int n) → s.pc = .int k →
    r.toInt = n.toInt + 1 → s.fault = none → exec (.brs o) s = .next t → t.fault = none →
    u.mem = t.mem → u.sym = t.sym → u.params = t.params →
    t.pc = .int r ∧ exec (.bri o) u = .next { u with ar := .int n, pc := .int k }

/-- A store is seen by the very next fetch (20_memory.md section 7): the cell that `sta` wrote comes into IR when it is
fetched next. -/
def Obligations.StoreIsSeenByTheNextFetch : Prop :=
  ∀ (o : Operand) (s t u : State) (z : Word), z ≠ 0 → resolve o s = .ok (.int z) →
    memWrite (.int z) s.acc s = .ok u → exec (.sta o) s = .next t → t.pc = .int z →
    (fetch t).ir = s.acc ∧ (fetch t).ar = .int z

/-- All state survives the wait for input (60_exceptions.md section 6): a step that waits and goes on when a value
arrives ends where it would have ended with the value there from the start. The bit `blocked`, by which a state shows
that it waits, is the model's (log entry 7). -/
def Obligations.WaitingForInputChangesNothing : Prop :=
  ∀ (s t : State) (d : DeviceValue), s.running = true → s.blocked = false → s.inQ = [] → step s = .next t →
    t.blocked = true → step (supplyInput d t) = step (supplyInput d s)
end

