-- ==== Sys2Proof/Laws/State.lean ====
section
/-! SUPPORT. One lemma per field per setter of State, and the same for the operations that are chains of setters. -/

namespace Sys2Proof.Machine

section setPc
variable (s : State) (v : Value)
@[simp] theorem State.setPc_pc : (s.setPc v).pc = v := rfl
@[simp] theorem State.setPc_ar : (s.setPc v).ar = s.ar := rfl
@[simp] theorem State.setPc_ir : (s.setPc v).ir = s.ir := rfl
@[simp] theorem State.setPc_acc : (s.setPc v).acc = s.acc := rfl
@[simp] theorem State.setPc_b : (s.setPc v).b = s.b := rfl
@[simp] theorem State.setPc_mem : (s.setPc v).mem = s.mem := rfl
@[simp] theorem State.setPc_sym : (s.setPc v).sym = s.sym := rfl
@[simp] theorem State.setPc_running : (s.setPc v).running = s.running := rfl
@[simp] theorem State.setPc_fault : (s.setPc v).fault = s.fault := rfl
@[simp] theorem State.setPc_inQ : (s.setPc v).inQ = s.inQ := rfl
@[simp] theorem State.setPc_outLog : (s.setPc v).outLog = s.outLog := rfl
@[simp] theorem State.setPc_diag : (s.setPc v).diag = s.diag := rfl
@[simp] theorem State.setPc_blocked : (s.setPc v).blocked = s.blocked := rfl
@[simp] theorem State.setPc_params : (s.setPc v).params = s.params := rfl
end setPc

section setAr
variable (s : State) (v : Value)
@[simp] theorem State.setAr_pc : (s.setAr v).pc = s.pc := rfl
@[simp] theorem State.setAr_ar : (s.setAr v).ar = v := rfl
@[simp] theorem State.setAr_ir : (s.setAr v).ir = s.ir := rfl
@[simp] theorem State.setAr_acc : (s.setAr v).acc = s.acc := rfl
@[simp] theorem State.setAr_b : (s.setAr v).b = s.b := rfl
@[simp] theorem State.setAr_mem : (s.setAr v).mem = s.mem := rfl
@[simp] theorem State.setAr_sym : (s.setAr v).sym = s.sym := rfl
@[simp] theorem State.setAr_running : (s.setAr v).running = s.running := rfl
@[simp] theorem State.setAr_fault : (s.setAr v).fault = s.fault := rfl
@[simp] theorem State.setAr_inQ : (s.setAr v).inQ = s.inQ := rfl
@[simp] theorem State.setAr_outLog : (s.setAr v).outLog = s.outLog := rfl
@[simp] theorem State.setAr_diag : (s.setAr v).diag = s.diag := rfl
@[simp] theorem State.setAr_blocked : (s.setAr v).blocked = s.blocked := rfl
@[simp] theorem State.setAr_params : (s.setAr v).params = s.params := rfl
end setAr

section setIr
variable (s : State) (v : Value)
@[simp] theorem State.setIr_pc : (s.setIr v).pc = s.pc := rfl
@[simp] theorem State.setIr_ar : (s.setIr v).ar = s.ar := rfl
@[simp] theorem State.setIr_ir : (s.setIr v).ir = v := rfl
@[simp] theorem State.setIr_acc : (s.setIr v).acc = s.acc := rfl
@[simp] theorem State.setIr_b : (s.setIr v).b = s.b := rfl
@[simp] theorem State.setIr_mem : (s.setIr v).mem = s.mem := rfl
@[simp] theorem State.setIr_sym : (s.setIr v).sym = s.sym := rfl
@[simp] theorem State.setIr_running : (s.setIr v).running = s.running := rfl
@[simp] theorem State.setIr_fault : (s.setIr v).fault = s.fault := rfl
@[simp] theorem State.setIr_inQ : (s.setIr v).inQ = s.inQ := rfl
@[simp] theorem State.setIr_outLog : (s.setIr v).outLog = s.outLog := rfl
@[simp] theorem State.setIr_diag : (s.setIr v).diag = s.diag := rfl
@[simp] theorem State.setIr_blocked : (s.setIr v).blocked = s.blocked := rfl
@[simp] theorem State.setIr_params : (s.setIr v).params = s.params := rfl
end setIr

section setAcc
variable (s : State) (v : Value)
@[simp] theorem State.setAcc_pc : (s.setAcc v).pc = s.pc := rfl
@[simp] theorem State.setAcc_ar : (s.setAcc v).ar = s.ar := rfl
@[simp] theorem State.setAcc_ir : (s.setAcc v).ir = s.ir := rfl
@[simp] theorem State.setAcc_acc : (s.setAcc v).acc = v := rfl
@[simp] theorem State.setAcc_b : (s.setAcc v).b = s.b := rfl
@[simp] theorem State.setAcc_mem : (s.setAcc v).mem = s.mem := rfl
@[simp] theorem State.setAcc_sym : (s.setAcc v).sym = s.sym := rfl
@[simp] theorem State.setAcc_running : (s.setAcc v).running = s.running := rfl
@[simp] theorem State.setAcc_fault : (s.setAcc v).fault = s.fault := rfl
@[simp] theorem State.setAcc_inQ : (s.setAcc v).inQ = s.inQ := rfl
@[simp] theorem State.setAcc_outLog : (s.setAcc v).outLog = s.outLog := rfl
@[simp] theorem State.setAcc_diag : (s.setAcc v).diag = s.diag := rfl
@[simp] theorem State.setAcc_blocked : (s.setAcc v).blocked = s.blocked := rfl
@[simp] theorem State.setAcc_params : (s.setAcc v).params = s.params := rfl
end setAcc

section setB
variable (s : State) (v : Value)
@[simp] theorem State.setB_pc : (s.setB v).pc = s.pc := rfl
@[simp] theorem State.setB_ar : (s.setB v).ar = s.ar := rfl
@[simp] theorem State.setB_ir : (s.setB v).ir = s.ir := rfl
@[simp] theorem State.setB_acc : (s.setB v).acc = s.acc := rfl
@[simp] theorem State.setB_b : (s.setB v).b = v := rfl
@[simp] theorem State.setB_mem : (s.setB v).mem = s.mem := rfl
@[simp] theorem State.setB_sym : (s.setB v).sym = s.sym := rfl
@[simp] theorem State.setB_running : (s.setB v).running = s.running := rfl
@[simp] theorem State.setB_fault : (s.setB v).fault = s.fault := rfl
@[simp] theorem State.setB_inQ : (s.setB v).inQ = s.inQ := rfl
@[simp] theorem State.setB_outLog : (s.setB v).outLog = s.outLog := rfl
@[simp] theorem State.setB_diag : (s.setB v).diag = s.diag := rfl
@[simp] theorem State.setB_blocked : (s.setB v).blocked = s.blocked := rfl
@[simp] theorem State.setB_params : (s.setB v).params = s.params := rfl
end setB

section setMem
variable (s : State) (m : Memory)
@[simp] theorem State.setMem_pc : (s.setMem m).pc = s.pc := rfl
@[simp] theorem State.setMem_ar : (s.setMem m).ar = s.ar := rfl
@[simp] theorem State.setMem_ir : (s.setMem m).ir = s.ir := rfl
@[simp] theorem State.setMem_acc : (s.setMem m).acc = s.acc := rfl
@[simp] theorem State.setMem_b : (s.setMem m).b = s.b := rfl
@[simp] theorem State.setMem_mem : (s.setMem m).mem = m := rfl
@[simp] theorem State.setMem_sym : (s.setMem m).sym = s.sym := rfl
@[simp] theorem State.setMem_running : (s.setMem m).running = s.running := rfl
@[simp] theorem State.setMem_fault : (s.setMem m).fault = s.fault := rfl
@[simp] theorem State.setMem_inQ : (s.setMem m).inQ = s.inQ := rfl
@[simp] theorem State.setMem_outLog : (s.setMem m).outLog = s.outLog := rfl
@[simp] theorem State.setMem_diag : (s.setMem m).diag = s.diag := rfl
@[simp] theorem State.setMem_blocked : (s.setMem m).blocked = s.blocked := rfl
@[simp] theorem State.setMem_params : (s.setMem m).params = s.params := rfl
end setMem

section setSym
variable (s : State) (t : List (Nat × Value))
@[simp] theorem State.setSym_pc : (s.setSym t).pc = s.pc := rfl
@[simp] theorem State.setSym_ar : (s.setSym t).ar = s.ar := rfl
@[simp] theorem State.setSym_ir : (s.setSym t).ir = s.ir := rfl
@[simp] theorem State.setSym_acc : (s.setSym t).acc = s.acc := rfl
@[simp] theorem State.setSym_b : (s.setSym t).b = s.b := rfl
@[simp] theorem State.setSym_mem : (s.setSym t).mem = s.mem := rfl
@[simp] theorem State.setSym_sym : (s.setSym t).sym = t := rfl
@[simp] theorem State.setSym_running : (s.setSym t).running = s.running := rfl
@[simp] theorem State.setSym_fault : (s.setSym t).fault = s.fault := rfl
@[simp] theorem State.setSym_inQ : (s.setSym t).inQ = s.inQ := rfl
@[simp] theorem State.setSym_outLog : (s.setSym t).outLog = s.outLog := rfl
@[simp] theorem State.setSym_diag : (s.setSym t).diag = s.diag := rfl
@[simp] theorem State.setSym_blocked : (s.setSym t).blocked = s.blocked := rfl
@[simp] theorem State.setSym_params : (s.setSym t).params = s.params := rfl
end setSym

section setRunning
variable (s : State) (r : Bool)
@[simp] theorem State.setRunning_pc : (s.setRunning r).pc = s.pc := rfl
@[simp] theorem State.setRunning_ar : (s.setRunning r).ar = s.ar := rfl
@[simp] theorem State.setRunning_ir : (s.setRunning r).ir = s.ir := rfl
@[simp] theorem State.setRunning_acc : (s.setRunning r).acc = s.acc := rfl
@[simp] theorem State.setRunning_b : (s.setRunning r).b = s.b := rfl
@[simp] theorem State.setRunning_mem : (s.setRunning r).mem = s.mem := rfl
@[simp] theorem State.setRunning_sym : (s.setRunning r).sym = s.sym := rfl
@[simp] theorem State.setRunning_running : (s.setRunning r).running = r := rfl
@[simp] theorem State.setRunning_fault : (s.setRunning r).fault = s.fault := rfl
@[simp] theorem State.setRunning_inQ : (s.setRunning r).inQ = s.inQ := rfl
@[simp] theorem State.setRunning_outLog : (s.setRunning r).outLog = s.outLog := rfl
@[simp] theorem State.setRunning_diag : (s.setRunning r).diag = s.diag := rfl
@[simp] theorem State.setRunning_blocked : (s.setRunning r).blocked = s.blocked := rfl
@[simp] theorem State.setRunning_params : (s.setRunning r).params = s.params := rfl
end setRunning

section setFault
variable (s : State) (f : Option Cause)
@[simp] theorem State.setFault_pc : (s.setFault f).pc = s.pc := rfl
@[simp] theorem State.setFault_ar : (s.setFault f).ar = s.ar := rfl
@[simp] theorem State.setFault_ir : (s.setFault f).ir = s.ir := rfl
@[simp] theorem State.setFault_acc : (s.setFault f).acc = s.acc := rfl
@[simp] theorem State.setFault_b : (s.setFault f).b = s.b := rfl
@[simp] theorem State.setFault_mem : (s.setFault f).mem = s.mem := rfl
@[simp] theorem State.setFault_sym : (s.setFault f).sym = s.sym := rfl
@[simp] theorem State.setFault_running : (s.setFault f).running = s.running := rfl
@[simp] theorem State.setFault_fault : (s.setFault f).fault = f := rfl
@[simp] theorem State.setFault_inQ : (s.setFault f).inQ = s.inQ := rfl
@[simp] theorem State.setFault_outLog : (s.setFault f).outLog = s.outLog := rfl
@[simp] theorem State.setFault_diag : (s.setFault f).diag = s.diag := rfl
@[simp] theorem State.setFault_blocked : (s.setFault f).blocked = s.blocked := rfl
@[simp] theorem State.setFault_params : (s.setFault f).params = s.params := rfl
end setFault

section setInQ
variable (s : State) (q : List DeviceValue)
@[simp] theorem State.setInQ_pc : (s.setInQ q).pc = s.pc := rfl
@[simp] theorem State.setInQ_ar : (s.setInQ q).ar = s.ar := rfl
@[simp] theorem State.setInQ_ir : (s.setInQ q).ir = s.ir := rfl
@[simp] theorem State.setInQ_acc : (s.setInQ q).acc = s.acc := rfl
@[simp] theorem State.setInQ_b : (s.setInQ q).b = s.b := rfl
@[simp] theorem State.setInQ_mem : (s.setInQ q).mem = s.mem := rfl
@[simp] theorem State.setInQ_sym : (s.setInQ q).sym = s.sym := rfl
@[simp] theorem State.setInQ_running : (s.setInQ q).running = s.running := rfl
@[simp] theorem State.setInQ_fault : (s.setInQ q).fault = s.fault := rfl
@[simp] theorem State.setInQ_inQ : (s.setInQ q).inQ = q := rfl
@[simp] theorem State.setInQ_outLog : (s.setInQ q).outLog = s.outLog := rfl
@[simp] theorem State.setInQ_diag : (s.setInQ q).diag = s.diag := rfl
@[simp] theorem State.setInQ_blocked : (s.setInQ q).blocked = s.blocked := rfl
@[simp] theorem State.setInQ_params : (s.setInQ q).params = s.params := rfl
end setInQ

section setOutLog
variable (s : State) (l : List Value)
@[simp] theorem State.setOutLog_pc : (s.setOutLog l).pc = s.pc := rfl
@[simp] theorem State.setOutLog_ar : (s.setOutLog l).ar = s.ar := rfl
@[simp] theorem State.setOutLog_ir : (s.setOutLog l).ir = s.ir := rfl
@[simp] theorem State.setOutLog_acc : (s.setOutLog l).acc = s.acc := rfl
@[simp] theorem State.setOutLog_b : (s.setOutLog l).b = s.b := rfl
@[simp] theorem State.setOutLog_mem : (s.setOutLog l).mem = s.mem := rfl
@[simp] theorem State.setOutLog_sym : (s.setOutLog l).sym = s.sym := rfl
@[simp] theorem State.setOutLog_running : (s.setOutLog l).running = s.running := rfl
@[simp] theorem State.setOutLog_fault : (s.setOutLog l).fault = s.fault := rfl
@[simp] theorem State.setOutLog_inQ : (s.setOutLog l).inQ = s.inQ := rfl
@[simp] theorem State.setOutLog_outLog : (s.setOutLog l).outLog = l := rfl
@[simp] theorem State.setOutLog_diag : (s.setOutLog l).diag = s.diag := rfl
@[simp] theorem State.setOutLog_blocked : (s.setOutLog l).blocked = s.blocked := rfl
@[simp] theorem State.setOutLog_params : (s.setOutLog l).params = s.params := rfl
end setOutLog

section setDiag
variable (s : State) (d : Bool)
@[simp] theorem State.setDiag_pc : (s.setDiag d).pc = s.pc := rfl
@[simp] theorem State.setDiag_ar : (s.setDiag d).ar = s.ar := rfl
@[simp] theorem State.setDiag_ir : (s.setDiag d).ir = s.ir := rfl
@[simp] theorem State.setDiag_acc : (s.setDiag d).acc = s.acc := rfl
@[simp] theorem State.setDiag_b : (s.setDiag d).b = s.b := rfl
@[simp] theorem State.setDiag_mem : (s.setDiag d).mem = s.mem := rfl
@[simp] theorem State.setDiag_sym : (s.setDiag d).sym = s.sym := rfl
@[simp] theorem State.setDiag_running : (s.setDiag d).running = s.running := rfl
@[simp] theorem State.setDiag_fault : (s.setDiag d).fault = s.fault := rfl
@[simp] theorem State.setDiag_inQ : (s.setDiag d).inQ = s.inQ := rfl
@[simp] theorem State.setDiag_outLog : (s.setDiag d).outLog = s.outLog := rfl
@[simp] theorem State.setDiag_diag : (s.setDiag d).diag = d := rfl
@[simp] theorem State.setDiag_blocked : (s.setDiag d).blocked = s.blocked := rfl
@[simp] theorem State.setDiag_params : (s.setDiag d).params = s.params := rfl
end setDiag

section setBlocked
variable (s : State) (w : Bool)
@[simp] theorem State.setBlocked_pc : (s.setBlocked w).pc = s.pc := rfl
@[simp] theorem State.setBlocked_ar : (s.setBlocked w).ar = s.ar := rfl
@[simp] theorem State.setBlocked_ir : (s.setBlocked w).ir = s.ir := rfl
@[simp] theorem State.setBlocked_acc : (s.setBlocked w).acc = s.acc := rfl
@[simp] theorem State.setBlocked_b : (s.setBlocked w).b = s.b := rfl
@[simp] theorem State.setBlocked_mem : (s.setBlocked w).mem = s.mem := rfl
@[simp] theorem State.setBlocked_sym : (s.setBlocked w).sym = s.sym := rfl
@[simp] theorem State.setBlocked_running : (s.setBlocked w).running = s.running := rfl
@[simp] theorem State.setBlocked_fault : (s.setBlocked w).fault = s.fault := rfl
@[simp] theorem State.setBlocked_inQ : (s.setBlocked w).inQ = s.inQ := rfl
@[simp] theorem State.setBlocked_outLog : (s.setBlocked w).outLog = s.outLog := rfl
@[simp] theorem State.setBlocked_diag : (s.setBlocked w).diag = s.diag := rfl
@[simp] theorem State.setBlocked_blocked : (s.setBlocked w).blocked = w := rfl
@[simp] theorem State.setBlocked_params : (s.setBlocked w).params = s.params := rfl
end setBlocked

section dispatchFailure
variable (c : Cause) (s : State)
@[simp] theorem dispatchFailure_pc : (dispatchFailure c s).pc = .int 0 := rfl
@[simp] theorem dispatchFailure_ar : (dispatchFailure c s).ar = s.ar := rfl
@[simp] theorem dispatchFailure_ir : (dispatchFailure c s).ir = s.ir := rfl
@[simp] theorem dispatchFailure_acc : (dispatchFailure c s).acc = s.acc := rfl
@[simp] theorem dispatchFailure_b : (dispatchFailure c s).b = s.b := rfl
@[simp] theorem dispatchFailure_mem : (dispatchFailure c s).mem = s.mem := rfl
@[simp] theorem dispatchFailure_sym : (dispatchFailure c s).sym = s.sym := rfl
@[simp] theorem dispatchFailure_running : (dispatchFailure c s).running = s.running := rfl
@[simp] theorem dispatchFailure_fault : (dispatchFailure c s).fault = some c := rfl
@[simp] theorem dispatchFailure_inQ : (dispatchFailure c s).inQ = s.inQ := rfl
@[simp] theorem dispatchFailure_outLog : (dispatchFailure c s).outLog = s.outLog := rfl
@[simp] theorem dispatchFailure_diag : (dispatchFailure c s).diag = s.diag := rfl
@[simp] theorem dispatchFailure_blocked : (dispatchFailure c s).blocked = s.blocked := rfl
@[simp] theorem dispatchFailure_params : (dispatchFailure c s).params = s.params := rfl
end dispatchFailure

section runStartReset
variable (s : State)
@[simp] theorem runStartReset_pc : (runStartReset s).pc = .int resetPc := rfl
@[simp] theorem runStartReset_ar : (runStartReset s).ar = .unset := rfl
@[simp] theorem runStartReset_ir : (runStartReset s).ir = .unset := rfl
@[simp] theorem runStartReset_acc : (runStartReset s).acc = .unset := rfl
@[simp] theorem runStartReset_b : (runStartReset s).b = .unset := rfl
@[simp] theorem runStartReset_mem : (runStartReset s).mem = s.mem := rfl
@[simp] theorem runStartReset_sym : (runStartReset s).sym = s.sym := rfl
@[simp] theorem runStartReset_running : (runStartReset s).running = true := rfl
@[simp] theorem runStartReset_fault : (runStartReset s).fault = none := rfl
@[simp] theorem runStartReset_inQ : (runStartReset s).inQ = s.inQ := rfl
@[simp] theorem runStartReset_outLog : (runStartReset s).outLog = s.outLog := rfl
@[simp] theorem runStartReset_diag : (runStartReset s).diag = s.diag := rfl
@[simp] theorem runStartReset_blocked : (runStartReset s).blocked = false := rfl
@[simp] theorem runStartReset_params : (runStartReset s).params = s.params := rfl
end runStartReset

section devOut
variable (v : Value) (s : State)
@[simp] theorem devOut_pc : (devOut v s).pc = s.pc := rfl
@[simp] theorem devOut_ar : (devOut v s).ar = s.ar := rfl
@[simp] theorem devOut_ir : (devOut v s).ir = s.ir := rfl
@[simp] theorem devOut_acc : (devOut v s).acc = s.acc := rfl
@[simp] theorem devOut_b : (devOut v s).b = s.b := rfl
@[simp] theorem devOut_mem : (devOut v s).mem = s.mem := rfl
@[simp] theorem devOut_sym : (devOut v s).sym = s.sym := rfl
@[simp] theorem devOut_running : (devOut v s).running = s.running := rfl
@[simp] theorem devOut_fault : (devOut v s).fault = s.fault := rfl
@[simp] theorem devOut_inQ : (devOut v s).inQ = s.inQ := rfl
@[simp] theorem devOut_outLog : (devOut v s).outLog = s.outLog ++ [v] := rfl
@[simp] theorem devOut_diag : (devOut v s).diag = s.diag := rfl
@[simp] theorem devOut_blocked : (devOut v s).blocked = s.blocked := rfl
@[simp] theorem devOut_params : (devOut v s).params = s.params := rfl
end devOut

section symBind
variable (s : State) (n : SymName) (v : Value)
@[simp] theorem symBind_pc : (symBind s n v).pc = s.pc := rfl
@[simp] theorem symBind_ar : (symBind s n v).ar = s.ar := rfl
@[simp] theorem symBind_ir : (symBind s n v).ir = s.ir := rfl
@[simp] theorem symBind_acc : (symBind s n v).acc = s.acc := rfl
@[simp] theorem symBind_b : (symBind s n v).b = s.b := rfl
@[simp] theorem symBind_mem : (symBind s n v).mem = s.mem := rfl
@[simp] theorem symBind_sym : (symBind s n v).sym = tablePut s.sym n.toNat v := rfl
@[simp] theorem symBind_running : (symBind s n v).running = s.running := rfl
@[simp] theorem symBind_fault : (symBind s n v).fault = s.fault := rfl
@[simp] theorem symBind_inQ : (symBind s n v).inQ = s.inQ := rfl
@[simp] theorem symBind_outLog : (symBind s n v).outLog = s.outLog := rfl
@[simp] theorem symBind_diag : (symBind s n v).diag = s.diag := rfl
@[simp] theorem symBind_blocked : (symBind s n v).blocked = s.blocked := rfl
@[simp] theorem symBind_params : (symBind s n v).params = s.params := rfl
end symBind

section loopTest
variable (s : State)
@[simp] theorem loopTest_pc : (loopTest s).pc = s.pc := by unfold loopTest; split <;> rfl
@[simp] theorem loopTest_ar : (loopTest s).ar = s.ar := by unfold loopTest; split <;> rfl
@[simp] theorem loopTest_ir : (loopTest s).ir = s.ir := by unfold loopTest; split <;> rfl
@[simp] theorem loopTest_acc : (loopTest s).acc = s.acc := by unfold loopTest; split <;> rfl
@[simp] theorem loopTest_b : (loopTest s).b = s.b := by unfold loopTest; split <;> rfl
@[simp] theorem loopTest_mem : (loopTest s).mem = s.mem := by unfold loopTest; split <;> rfl
@[simp] theorem loopTest_sym : (loopTest s).sym = s.sym := by unfold loopTest; split <;> rfl
@[simp] theorem loopTest_fault : (loopTest s).fault = s.fault := by unfold loopTest; split <;> rfl
@[simp] theorem loopTest_inQ : (loopTest s).inQ = s.inQ := by unfold loopTest; split <;> rfl
@[simp] theorem loopTest_outLog : (loopTest s).outLog = s.outLog := by unfold loopTest; split <;> rfl
@[simp] theorem loopTest_diag : (loopTest s).diag = s.diag := by unfold loopTest; split <;> rfl
@[simp] theorem loopTest_blocked : (loopTest s).blocked = s.blocked := by unfold loopTest; split <;> rfl
@[simp] theorem loopTest_params : (loopTest s).params = s.params := by unfold loopTest; split <;> rfl
theorem loopTest_running : (loopTest s).running = if s.pc = .int 0 then false else s.running := by
  unfold loopTest; split <;> rfl
end loopTest

end Sys2Proof.Machine
end

