-- ==== Sys2Proof/Laws/Ops.lean ====
section
/-! SUPPORT. What tables, memory, Symbol Table, device and the three memory operations do, said once each. -/

namespace Sys2Proof.Machine

/-! ### Tables -/

theorem tableGet_put (t : List (Nat × Value)) (n : Nat) (v : Value) (m : Nat) :
    tableGet (tablePut t n v) m = if m = n then some v else tableGet t m := by
  induction t with
  | nil => by_cases h : n = m <;> simp [tablePut, tableGet, h, eq_comm]
  | cons e t ih =>
    obtain ⟨k, w⟩ := e
    by_cases h1 : n < k
    · by_cases h : m = n
      · simp [tablePut, tableGet, h1, h]
      · simp [tablePut, tableGet, h1, h, Ne.symm h]
    · by_cases h2 : n = k
      · subst h2
        by_cases h : m = n
        · simp [tablePut, tableGet, h]
        · simp [tablePut, tableGet, h, Ne.symm h]
      · by_cases h3 : k = m
        · subst h3
          simp [tablePut, tableGet, h1, h2, Ne.symm h2]
        · simp [tablePut, tableGet, h1, h2, h3, ih]

theorem tableGet_filter (p : Nat → Bool) (t : List (Nat × Value)) (m : Nat) :
    tableGet (t.filter fun e => p e.1) m = if p m then tableGet t m else none := by
  induction t with
  | nil => simp [tableGet]
  | cons e t ih =>
    obtain ⟨k, w⟩ := e
    by_cases hk : k = m
    · subst hk
      cases hp : p k <;> simp_all [tableGet, List.filter]
    · cases hp : p k <;> simp_all [tableGet, List.filter]

theorem tableGet_erase (t : List (Nat × Value)) (n m : Nat) :
    tableGet (tableErase t n) m = if m = n then none else tableGet t m := by
  have h := tableGet_filter (fun k => decide (k ≠ n)) t m
  by_cases hm : m = n <;> simp_all [tableErase]

theorem tableGet_below (t : List (Nat × Value)) (len m : Nat) :
    tableGet (tableBelow t len) m = if m < len then tableGet t m else none := by
  have h := tableGet_filter (fun k => decide (k < len)) t m
  by_cases hm : m < len <;> simp_all [tableBelow]

/-- An entry of a table with one more key is the new one or an old one. -/
theorem mem_tablePut {t : List (Nat × Value)} {n : Nat} {v : Value} {e : Nat × Value}
    (h : e ∈ tablePut t n v) : e = (n, v) ∨ e ∈ t := by
  induction t with
  | nil => simp_all [tablePut]
  | cons x t ih =>
    obtain ⟨k, w⟩ := x
    simp only [tablePut] at h
    split at h
    · simp_all
    · split at h
      · simp only [List.mem_cons] at h ⊢
        tauto
      · simp only [List.mem_cons] at h ⊢
        rcases h with h | h
        · tauto
        · rcases ih h with h | h <;> tauto

theorem tableSorted_nil : tableSorted [] = true := by simp [tableSorted]

theorem tableSorted_cons {k : Nat} {w : Value} {t : List (Nat × Value)} :
    tableSorted ((k, w) :: t) = true ↔ (∀ e ∈ t, k < e.1) ∧ tableSorted t = true := by
  simp [tableSorted, List.pairwise_cons]

theorem tableSorted_put {t : List (Nat × Value)} (n : Nat) (v : Value) (h : tableSorted t = true) :
    tableSorted (tablePut t n v) = true := by
  induction t with
  | nil => simp [tablePut, tableSorted]
  | cons x t ih =>
    obtain ⟨k, w⟩ := x
    obtain ⟨hk, ht⟩ := tableSorted_cons.1 h
    simp only [tablePut]
    split
    next hlt =>
      refine tableSorted_cons.2 ⟨?_, h⟩
      intro e he
      rcases List.mem_cons.1 he with rfl | he
      · exact hlt
      · exact hlt.trans (hk e he)
    next hlt =>
      split
      next heq => exact tableSorted_cons.2 ⟨fun e he => heq ▸ hk e he, ht⟩
      next hne =>
        refine tableSorted_cons.2 ⟨?_, ih ht⟩
        intro e he
        rcases mem_tablePut he with rfl | he
        · change k < n
          omega
        · exact hk e he

theorem tableSorted_filter {t : List (Nat × Value)} (p : Nat × Value → Bool) (h : tableSorted t = true) :
    tableSorted (t.filter p) = true := by
  simp only [tableSorted, decide_eq_true_eq] at *
  exact h.filter p

/-- In a sorted table an entry is what its key gives. -/
theorem tableGet_of_mem {t : List (Nat × Value)} (h : tableSorted t = true) {e : Nat × Value} (he : e ∈ t) :
    tableGet t e.1 = some e.2 := by
  induction t with
  | nil => cases he
  | cons x t ih =>
    obtain ⟨k, w⟩ := x
    obtain ⟨hk, ht⟩ := tableSorted_cons.1 h
    rcases List.mem_cons.1 he with rfl | he
    · simp [tableGet]
    · have := hk e he
      simp [tableGet, Nat.ne_of_lt this, ih ht he]

theorem mem_of_tableGet {t : List (Nat × Value)} {n : Nat} {v : Value} (h : tableGet t n = some v) : (n, v) ∈ t := by
  induction t with
  | nil => simp [tableGet] at h
  | cons x t ih =>
    obtain ⟨k, w⟩ := x
    simp only [tableGet] at h
    split at h
    next hk => simp_all
    next hk => exact List.mem_cons_of_mem _ (ih h)

/-- Two sorted tables that give the same under every key are the same table. -/
theorem tableSorted_ext {t u : List (Nat × Value)} (ht : tableSorted t = true) (hu : tableSorted u = true)
    (h : ∀ n, tableGet t n = tableGet u n) : t = u := by
  have mem_iff : ∀ {t u : List (Nat × Value)}, tableSorted t = true → tableSorted u = true →
      (∀ n, tableGet t n = tableGet u n) → ∀ e ∈ t, e ∈ u := by
    intro t u ht _ h e he
    have := tableGet_of_mem ht he
    rw [h] at this
    exact mem_of_tableGet this
  have ht' := ht
  have hu' := hu
  simp only [tableSorted, decide_eq_true_eq] at ht' hu'
  refine List.Perm.eq_of_pairwise (le := fun x y => x.1 < y.1) ?_ ht' hu' ?_
  · intro a b _ _ hab hba
    exact absurd hab (Nat.lt_asymm hba)
  · refine (List.perm_ext_iff_of_nodup ?_ ?_).2 ?_
    · exact ht'.imp fun h => by intro h'; simp [h'] at h
    · exact hu'.imp fun h => by intro h'; simp [h'] at h
    · exact fun e => ⟨mem_iff ht hu h e, mem_iff hu ht (fun n => (h n).symm) e⟩

/-! ### Memory -/

theorem tableGet_setCell (t : List (Nat × Value)) (n : Nat) (v : Value) (m : Nat) :
    (tableGet (setCell t n v) m).getD unlisted = if m = n then v else (tableGet t m).getD unlisted := by
  unfold setCell
  split
  next h => rw [tableGet_erase]; split <;> simp_all
  next h => rw [tableGet_put]; split <;> simp_all

@[simp] theorem Memory.cell_overwrite (m : Memory) (n : Nat) (v : Value) (k : Nat) :
    (m.overwrite n v).cell k = if k = n then v else m.cell k :=
  tableGet_setCell m.cells n v k

@[simp] theorem Memory.len_overwrite (m : Memory) (n : Nat) (v : Value) : (m.overwrite n v).len = m.len := rfl

@[simp] theorem Memory.cell_grow (m : Memory) (n : Nat) (v : Value) (k : Nat) :
    (m.grow n v).cell k = if k = n then v else if k < m.len then m.cell k else unlisted := by
  change (tableGet (setCell (tableBelow m.cells m.len) n v) k).getD unlisted = _
  rw [tableGet_setCell, tableGet_below]
  by_cases h : k < m.len <;> simp [h, Memory.cell]

@[simp] theorem Memory.len_grow (m : Memory) (n : Nat) (v : Value) : (m.grow n v).len = n + 1 := rfl

/-- The canonical form, entry by entry. -/
theorem Memory.wf_iff (m : Memory) :
    m.wf = true ↔ tableSorted m.cells = true ∧ ∀ e ∈ m.cells, e.2 ≠ unlisted ∧ e.1 < m.len := by
  simp [Memory.wf]

theorem Memory.wf_empty : (⟨[], 0⟩ : Memory).wf = true := by simp [Memory.wf, tableSorted]

theorem tableSorted_setCell {t : List (Nat × Value)} (n : Nat) (v : Value) (h : tableSorted t = true) :
    tableSorted (setCell t n v) = true := by
  unfold setCell
  split
  · exact tableSorted_filter _ h
  · exact tableSorted_put n v h

theorem mem_setCell {t : List (Nat × Value)} {n : Nat} {v : Value} {e : Nat × Value} (h : e ∈ setCell t n v) :
    (e = (n, v) ∧ v ≠ unlisted) ∨ e ∈ t := by
  unfold setCell at h
  split at h
  · exact .inr (List.mem_of_mem_filter h)
  next hv => exact (mem_tablePut h).imp (fun h => ⟨h, hv⟩) id

/-- The in-bounds arm keeps the canonical form. -/
theorem Memory.wf_overwrite {m : Memory} {n : Nat} (v : Value) (h : m.wf = true) (hn : n < m.len) :
    (m.overwrite n v).wf = true := by
  rw [Memory.wf_iff] at *
  refine ⟨tableSorted_setCell n v h.1, fun e he => ?_⟩
  rcases mem_setCell he with ⟨rfl, hv⟩ | he
  · exact ⟨hv, hn⟩
  · exact h.2 e he

/-- The growth arm keeps the canonical form. -/
theorem Memory.wf_grow {m : Memory} {n : Nat} (v : Value) (h : m.wf = true) (hn : m.len ≤ n) :
    (m.grow n v).wf = true := by
  rw [Memory.wf_iff] at *
  refine ⟨tableSorted_setCell n v (tableSorted_filter _ h.1), fun e he => ?_⟩
  rcases mem_setCell he with ⟨rfl, hv⟩ | he
  · exact ⟨hv, Nat.lt_succ_self n⟩
  · have := h.2 e (List.mem_of_mem_filter he)
    exact ⟨this.1, this.2.trans_le (hn.trans (Nat.le_succ n))⟩

theorem Memory.read_of_neg (m : Memory) {n : Int} (h : n < 0) : m.read n = unlisted := by
  simp [Memory.read, Int.not_le.2 h]

theorem Memory.read_of_lt (m : Memory) {n : Int} (h0 : 0 ≤ n) (h : n < m.len) : m.read n = m.cell n.toNat := by
  simp [Memory.read, h0, h]

theorem Memory.read_of_ge (m : Memory) {n : Int} (h : (m.len : Int) ≤ n) : m.read n = unlisted := by
  simp [Memory.read, Int.not_lt.2 h]

/-! ### Look-ups under the setters -/

section lookups
variable (s : State) (n : SymName) (a v : Value)

@[simp] theorem symLookup_setPc : symLookup (s.setPc v) n = symLookup s n := rfl
@[simp] theorem symLookup_setAr : symLookup (s.setAr v) n = symLookup s n := rfl
@[simp] theorem symLookup_setIr : symLookup (s.setIr v) n = symLookup s n := rfl
@[simp] theorem symLookup_setAcc : symLookup (s.setAcc v) n = symLookup s n := rfl
@[simp] theorem symLookup_setB : symLookup (s.setB v) n = symLookup s n := rfl
@[simp] theorem symLookup_setMem (m : Memory) : symLookup (s.setMem m) n = symLookup s n := rfl
@[simp] theorem symLookup_setRunning (r : Bool) : symLookup (s.setRunning r) n = symLookup s n := rfl
@[simp] theorem symLookup_setFault (f : Option Cause) : symLookup (s.setFault f) n = symLookup s n := rfl
@[simp] theorem symLookup_setInQ (q : List DeviceValue) : symLookup (s.setInQ q) n = symLookup s n := rfl
@[simp] theorem symLookup_setOutLog (l : List Value) : symLookup (s.setOutLog l) n = symLookup s n := rfl
@[simp] theorem symLookup_setDiag (d : Bool) : symLookup (s.setDiag d) n = symLookup s n := rfl
@[simp] theorem symLookup_setBlocked (w : Bool) : symLookup (s.setBlocked w) n = symLookup s n := rfl
@[simp] theorem symLookup_dispatchFailure (c : Cause) : symLookup (dispatchFailure c s) n = symLookup s n := rfl
@[simp] theorem symLookup_runStartReset : symLookup (runStartReset s) n = symLookup s n := rfl
@[simp] theorem symLookup_devOut : symLookup (devOut v s) n = symLookup s n := rfl
@[simp] theorem symLookup_loopTest : symLookup (loopTest s) n = symLookup s n := by unfold loopTest; split <;> rfl

@[simp] theorem memPeek_setPc : memPeek a (s.setPc v) = memPeek a s := rfl
@[simp] theorem memPeek_setAr : memPeek a (s.setAr v) = memPeek a s := rfl
@[simp] theorem memPeek_setIr : memPeek a (s.setIr v) = memPeek a s := rfl
@[simp] theorem memPeek_setAcc : memPeek a (s.setAcc v) = memPeek a s := rfl
@[simp] theorem memPeek_setB : memPeek a (s.setB v) = memPeek a s := rfl
@[simp] theorem memPeek_setRunning (r : Bool) : memPeek a (s.setRunning r) = memPeek a s := rfl
@[simp] theorem memPeek_setFault (f : Option Cause) : memPeek a (s.setFault f) = memPeek a s := rfl
@[simp] theorem memPeek_setInQ (q : List DeviceValue) : memPeek a (s.setInQ q) = memPeek a s := rfl
@[simp] theorem memPeek_setOutLog (l : List Value) : memPeek a (s.setOutLog l) = memPeek a s := rfl
@[simp] theorem memPeek_setDiag (d : Bool) : memPeek a (s.setDiag d) = memPeek a s := rfl
@[simp] theorem memPeek_setBlocked (w : Bool) : memPeek a (s.setBlocked w) = memPeek a s := rfl
@[simp] theorem memPeek_dispatchFailure (c : Cause) : memPeek a (dispatchFailure c s) = memPeek a s := rfl
@[simp] theorem memPeek_devOut : memPeek a (devOut v s) = memPeek a s := rfl
@[simp] theorem memPeek_loopTest : memPeek a (loopTest s) = memPeek a s := by unfold loopTest; split <;> rfl

end lookups

/-- A bound name is listed in SYM. -/
theorem mem_of_symLookup {s : State} {n : SymName} {v : Value} (h : symLookup s n = some v) :
    (n.toNat, v) ∈ s.sym := by
  unfold symLookup at h
  split at h
  · exact mem_of_tableGet h
  · simp at h

/-- What binding a name leaves: that name has the new Value if it has a slot, every other what it had. -/
theorem symLookup_symBind (s : State) (n k : SymName) (v : Value) :
    symLookup (symBind s n v) k =
      if k = n ∧ s.params.hasSlot n.toNat = true then some v else symLookup s k := by
  unfold symLookup
  simp only [symBind_params, symBind_sym, tableGet_put, BitVec.toNat_inj]
  by_cases hk : k = n
  · subst hk
    by_cases hs : s.params.hasSlot k.toNat = true <;> simp [hs]
  · simp [hk]

/-! ### MemRead -/

@[simp] theorem memRead_device (s : State) : memRead (.int deviceAddr) s = devIn s := by simp [memRead]

theorem memRead_of_ne {a : Value} (s : State) (h : a ≠ .int deviceAddr) : memRead a s = some (memPeek a s, s) := by
  simp [memRead, h]

/-- What a read that completes can have done. -/
theorem memRead_cases {a v : Value} {s s' : State} (h : memRead a s = some (v, s')) :
    (∃ d q, a = .int deviceAddr ∧ s.inQ = d :: q ∧ v = d.toValue ∧ s' = s.setInQ q) ∨
      (a ≠ .int deviceAddr ∧ v = memPeek a s ∧ s' = s) := by
  unfold memRead at h
  split at h
  next ha =>
    unfold devIn at h
    split at h
    · simp at h
    next d q hq =>
      simp only [Option.some.injEq, Prod.mk.injEq] at h
      exact .inl ⟨d, q, ha, hq, h.1.symm, h.2.symm⟩
  next ha =>
    simp only [Option.some.injEq, Prod.mk.injEq] at h
    exact .inr ⟨ha, h.1.symm, h.2.symm⟩

/-- A read waits only at the device, with nothing to read. -/
theorem memRead_none_iff {a : Value} {s : State} :
    memRead a s = none ↔ a = .int deviceAddr ∧ s.inQ = [] := by
  unfold memRead
  split
  next ha =>
    unfold devIn
    split <;> simp_all
  next ha => simp [ha]

/-! ### MemWrite -/

/-- What a write that is accepted can have done. -/
theorem memWrite_cases {a v : Value} {s s' : State} (h : memWrite a v s = .ok s') :
    (a = .int deviceAddr ∧ s' = devOut v s) ∨
      (∃ n, a = .name n ∧ (symLookup s n).isSome = true ∧ s' = symBind s n v) ∨
      (∃ z, a = .int z ∧ z ≠ deviceAddr ∧ 0 ≤ z.toInt ∧ z.toInt.toNat < s.mem.len ∧
        s' = s.setMem (s.mem.overwrite z.toInt.toNat v)) ∨
      (∃ z, a = .int z ∧ z ≠ deviceAddr ∧ 0 ≤ z.toInt ∧ s.mem.len ≤ z.toInt.toNat ∧
        s.params.hasCell z.toInt.toNat = true ∧ s' = s.setMem (s.mem.grow z.toInt.toNat v)) := by
  unfold memWrite at h
  split at h
  next ha => exact .inl ⟨ha, by simpa using h.symm⟩
  next ha =>
    cases a with
    | unset => simp at h
    | instr m o => simp at h
    | name n =>
      simp only at h
      split at h
      next hn => exact .inr (.inl ⟨n, rfl, hn, by simpa using h.symm⟩)
      · simp at h
    | int z =>
      have hz : z ≠ deviceAddr := fun e => ha (by rw [e])
      simp only at h
      split at h
      · simp at h
      next hneg =>
        split at h
        next hlt => exact .inr (.inr (.inl ⟨z, rfl, hz, by omega, hlt, by simpa using h.symm⟩))
        next hlt =>
          split at h
          next hc => exact .inr (.inr (.inr ⟨z, rfl, hz, by omega, by omega, hc, by simpa using h.symm⟩))
          · simp at h

/-- The one cause a write can raise. -/
theorem memWrite_error {a v : Value} {s : State} {c : Cause} (h : memWrite a v s = .error c) :
    c = .addressOutOfRange := by
  unfold memWrite at h
  split at h
  · simp at h
  next ha =>
    cases a with
    | unset => simpa using h.symm
    | instr m o => simpa using h.symm
    | name n => simp only at h; split at h <;> simp_all
    | int z => simp only at h; repeat' split at h <;> simp_all

/-- What a write that is accepted leaves alone, whatever its arm. -/
theorem memWrite_frame {a v : Value} {s s' : State} (h : memWrite a v s = .ok s') :
    s'.pc = s.pc ∧ s'.ar = s.ar ∧ s'.ir = s.ir ∧ s'.acc = s.acc ∧ s'.b = s.b ∧ s'.running = s.running ∧
      s'.fault = s.fault ∧ s'.inQ = s.inQ ∧ s'.diag = s.diag ∧ s'.blocked = s.blocked ∧ s'.params = s.params := by
  rcases memWrite_cases h with ⟨_, rfl⟩ | ⟨n, _, _, rfl⟩ | ⟨z, _, _, _, _, rfl⟩ | ⟨z, _, _, _, _, _, rfl⟩ <;> simp

/-! ### Raising and waiting -/

@[simp] theorem orRaise_ok {α : Type} (a : α) (s : State) (k : α → Result) : orRaise (.ok a) s k = k a := rfl

@[simp] theorem orRaise_error {α : Type} (c : Cause) (s : State) (k : α → Result) :
    orRaise (.error c) s k = .next (dispatchFailure c s) := rfl

@[simp] theorem orWait_some (v : Value) (s' s : State) (k : Value → State → Result) :
    orWait (some (v, s')) s k = k v s' := rfl

@[simp] theorem orWait_none (s : State) (k : Value → State → Result) :
    orWait none s k = .next (s.setBlocked true) := rfl

@[simp] theorem andThen_next (s : State) (k : State → Result) : andThen (.next s) k = k s := rfl
@[simp] theorem andThen_fault (f : Fault) (k : State → Result) : andThen (.fault f) k = .fault f := rfl
@[simp] theorem andThen_refused (q : Refusal) (k : State → Result) : andThen (.refused q) k = .refused q := rfl

/-- A micro-operation that can raise answers a next state in two ways. -/
theorem orRaise_next {α : Type} {x : Except Cause α} {s t : State} {k : α → Result} (h : orRaise x s k = .next t) :
    (∃ c, x = .error c ∧ t = dispatchFailure c s) ∨ (∃ a, x = .ok a ∧ k a = .next t) := by
  cases x with
  | error c => exact .inl ⟨c, rfl, by simpa using h.symm⟩
  | ok a => exact .inr ⟨a, rfl, h⟩

/-- A read in a handler answers a next state in two ways. -/
theorem orWait_next {x : Option (Value × State)} {s t : State} {k : Value → State → Result}
    (h : orWait x s k = .next t) :
    (x = none ∧ t = s.setBlocked true) ∨ (∃ v s', x = some (v, s') ∧ k v s' = .next t) := by
  cases x with
  | none => exact .inl ⟨rfl, by simpa using h.symm⟩
  | some p => exact .inr ⟨p.1, p.2, rfl, h⟩

/-- A micro-operation that can raise answers a next state if what follows it does. -/
theorem exists_next_orRaise {α : Type} {x : Except Cause α} {s : State} {k : α → Result}
    (h : ∀ a, x = .ok a → ∃ t, k a = .next t) : ∃ t, orRaise x s k = .next t := by
  cases x with
  | error c => exact ⟨_, rfl⟩
  | ok a => exact h a rfl

/-- A read in a handler answers a next state if what follows it does. -/
theorem exists_next_orWait {x : Option (Value × State)} {s : State} {k : Value → State → Result}
    (h : ∀ v s', x = some (v, s') → ∃ t, k v s' = .next t) : ∃ t, orWait x s k = .next t := by
  cases x with
  | none => exact ⟨_, rfl⟩
  | some p => exact h p.1 p.2 rfl

theorem andThen_eq_next {r : Result} {k : State → Result} {t : State} (h : andThen r k = .next t) :
    ∃ s, r = .next s ∧ k s = .next t := by
  cases r with
  | next s => exact ⟨s, rfl, h⟩
  | fault f => simp at h
  | refused q => simp at h

/-- The spec's reset values come from its two resets in order: construction, then the start of a run. -/
theorem reset_eq_runStartReset_construct : State.reset = runStartReset (State.construct Params.unbounded) := rfl

end Sys2Proof.Machine
end

