-- ==== Sys2Proof/Laws/Access.lean ====
section
/-! SUPPORT. Reads of memory after writes, the canonical form through whole operations, and which registers `memRead`
and `memWrite` do not look at. -/

namespace Sys2Proof.Machine

/-! ### Addresses -/

theorem int_ne_device {z : Word} (h : z ≠ 0) : Value.int z ≠ .int deviceAddr :=
  fun e => h (Value.int.inj e)

/-- The word that holds an address in range is that address. -/
theorem toInt_ofNat_of_le {k : Nat} (h : (k : Int) ≤ intMax) : (BitVec.ofNat 64 k).toInt = k := by
  simp only [intMax] at h
  rw [BitVec.toInt_eq_toNat_bmod, BitVec.toNat_ofNat, Nat.mod_eq_of_lt (by omega)]
  apply Int.bmod_eq_of_le <;> omega

/-! ### A read after a write -/

theorem Memory.read_overwrite (m : Memory) {n : Nat} (v : Value) (k : Int) (hn : n < m.len) :
    (m.overwrite n v).read k = if k = n then v else m.read k := by
  simp only [Memory.read, Memory.len_overwrite, Memory.cell_overwrite]
  by_cases h : 0 ≤ k ∧ k < m.len
  · simp only [if_pos h]
    by_cases hk : k = n
    · simp [hk]
    · rw [if_neg hk, if_neg (by omega)]
  · rw [if_neg h, if_neg h, if_neg (by omega)]

theorem Memory.read_grow (m : Memory) {n : Nat} (v : Value) (k : Int) (hn : m.len ≤ n) :
    (m.grow n v).read k = if k = n then v else m.read k := by
  simp only [Memory.read, Memory.len_grow, Memory.cell_grow]
  by_cases hk : k = n
  · rw [if_pos (by omega), if_pos hk, if_pos (by omega)]
  rw [if_neg hk]
  by_cases h : 0 ≤ k ∧ k < m.len
  · rw [if_pos (by omega), if_neg (by omega), if_pos (by omega), if_pos h]
  rw [if_neg h]
  by_cases hl : 0 ≤ k ∧ k < ((n + 1 : Nat) : Int)
  · rw [if_pos hl, if_neg (by omega), if_neg (by omega)]
  · rw [if_neg hl]

/-- Everything an accepted write to an integer address other than 0 does. -/
theorem memWrite_int_read {z : Word} {v : Value} {s t : State} (hz : z ≠ 0) (h : memWrite (.int z) v s = .ok t)
    (k : Int) : t.mem.read k = if k = z.toInt then v else s.mem.read k := by
  rcases memWrite_cases h with ⟨h1, -⟩ | ⟨n, h1, -⟩ | ⟨w, h1, -, h3, h4, rfl⟩ | ⟨w, h1, -, h3, h4, -, rfl⟩
  · exact absurd h1 (int_ne_device hz)
  · simp at h1
  · cases h1
    rw [State.setMem_mem, Memory.read_overwrite _ _ _ h4, Int.toNat_of_nonneg h3]
  · cases h1
    rw [State.setMem_mem, Memory.read_grow _ _ _ h4, Int.toNat_of_nonneg h3]

/-- When a write to an integer address other than 0 is accepted. -/
theorem memWrite_int_ok {z : Word} (v : Value) (s : State) (hz : z ≠ 0) (h0 : 0 ≤ z.toInt)
    (h : z.toInt < s.mem.len ∨ s.params.hasCell z.toInt.toNat = true) :
    ∃ m, memWrite (.int z) v s = .ok (s.setMem m) := by
  unfold memWrite
  rw [if_neg (int_ne_device hz)]
  by_cases hl : z.toInt.toNat < s.mem.len
  · exact ⟨s.mem.overwrite z.toInt.toNat v, by simp [hl, not_lt.2 h0]⟩
  · exact ⟨s.mem.grow z.toInt.toNat v, by simp [hl, h.resolve_left (by omega), not_lt.2 h0]⟩

/-! ### The canonical form -/

/-- A write that is accepted keeps the canonical form of memory. -/
theorem memWrite_keeps_wf {a v : Value} {s t : State} (hw : s.mem.wf = true) (h : memWrite a v s = .ok t) :
    t.mem.wf = true := by
  rcases memWrite_cases h with ⟨-, rfl⟩ | ⟨n, -, -, rfl⟩ | ⟨z, -, -, -, h4, rfl⟩ | ⟨z, -, -, -, h4, -, rfl⟩
  · exact hw
  · exact hw
  · exact Memory.wf_overwrite v hw h4
  · exact Memory.wf_grow v hw h4

/-- A read changes no memory at all. -/
theorem memRead_keeps_mem {a v : Value} {s t : State} (h : memRead a s = some (v, t)) : t.mem = s.mem := by
  rcases memRead_cases h with ⟨d, q, -, -, -, rfl⟩ | ⟨-, -, rfl⟩ <;> rfl

/-- Placing an instruction where the next step fetches it keeps the canonical form. -/
theorem placeAtPc_keeps_wf {s : State} (v : Value) (hw : s.mem.wf = true) : (placeAtPc v s).mem.wf = true := by
  unfold placeAtPc
  split
  next p =>
    split
    next hl => exact Memory.wf_overwrite v hw hl
    next hl => exact Memory.wf_grow v hw (by omega)
  all_goals exact hw

theorem reset_mem_wf : State.reset.mem.wf = true := Memory.wf_empty

/-- One turn of the growth loop adds an unset cell, and lists nothing. -/
theorem Memory.appendUnset_eq {m : Memory} (h : m.wf = true) : m.appendUnset = ⟨m.cells, m.len + 1⟩ := by
  have hc : tableErase m.cells m.len = m.cells := by
    rw [tableErase, List.filter_eq_self]
    intro e he
    have := (((Memory.wf_iff m).1 h).2 e he).2
    simp only [decide_eq_true_eq]
    omega
  simp only [Memory.appendUnset, setCell, if_true, hc]

/-! ### What reads and writes do not look at -/

/-- What a read that completes can have changed: one value of the input. -/
theorem memRead_frame {a v : Value} {s t : State} (h : memRead a s = some (v, t)) :
    t = s ∨ (a = .int deviceAddr ∧ ∃ d q, s.inQ = d :: q ∧ t = s.setInQ q) := by
  rcases memRead_cases h with ⟨d, q, ha, hq, -, rfl⟩ | ⟨-, -, rfl⟩
  · exact .inr ⟨ha, d, q, hq, rfl⟩
  · exact .inl rfl

/-- A write does not look at AR, and leaves it. -/
theorem memWrite_setAr_ok {a v : Value} {s t : State} (x : Value) (h : memWrite a v s = .ok t) :
    memWrite a v (s.setAr x) = .ok (t.setAr x) := by
  rcases memWrite_cases h with ⟨rfl, rfl⟩ | ⟨n, rfl, h1, rfl⟩ | ⟨z, rfl, h2, h3, h4, rfl⟩ |
    ⟨z, rfl, h2, h3, h4, h5, rfl⟩
  · rfl
  · simp only [memWrite, reduceCtorEq, if_false, symLookup_setAr, h1, if_true]; rfl
  all_goals
    unfold memWrite
    rw [if_neg (int_ne_device h2)]
  · simp [h4, not_lt.2 h3]; rfl
  · simp [not_lt.2 h3, h5, not_lt.2 h4]; rfl

theorem memWrite_setAr_error {a v : Value} {s : State} {c : Cause} (x : Value) (h : memWrite a v s = .error c) :
    memWrite a v (s.setAr x) = .error c := by
  unfold memWrite at h ⊢
  split_ifs at h ⊢
  cases a <;> simp_all
  all_goals
    repeat' split at h
    all_goals simp_all

/-- A read does not look at AR, and leaves it. -/
theorem memRead_setAr (a x : Value) (s : State) :
    memRead a (s.setAr x) = (memRead a s).map fun p => (p.1, p.2.setAr x) := by
  by_cases h : a = .int deviceAddr
  · subst h
    rw [memRead_device, memRead_device]
    unfold devIn
    rw [State.setAr_inQ]
    cases s.inQ <;> rfl
  · rw [memRead_of_ne _ h, memRead_of_ne _ h]; rfl

/-! ### Integers as Values -/

theorem resolve_isInt {o : Operand} {s : State} {a : Value} (hs : ∀ e ∈ s.sym, ∃ z, e.2 = .int z)
    (h : resolve o s = .ok a) : ∃ z, a = .int z := by
  cases o with
  | absent => simp [resolve] at h
  | lit z => exact ⟨z, by simpa [resolve] using h.symm⟩
  | sym n =>
    simp only [resolve] at h
    split at h
    next v hv =>
      simp only [Except.ok.injEq] at h
      subst h
      exact hs _ (mem_of_symLookup hv)
    · simp at h

end Sys2Proof.Machine
end

