-- ==== Sys2Proof/Laws/Decode.lean ====
section
/-! SUPPORT. The fields of a word put together from fields, and the word put together from its fields. -/

namespace Sys2Proof

/-- Bit `i` of a word comes from the field that holds it (R56). -/
theorem getLsbD_cellOfFields (tag opk : BitVec 4) (opc : Opcode) (opd : BitVec 64) (i : Nat) :
    (cellOfFields tag opk opc opd).getLsbD i =
      if i < 64 then opd.getLsbD i else if i < 72 then opc.getLsbD (i - 64)
      else if i < 76 then opk.getLsbD (i - 72) else tag.getLsbD (i - 76) := by
  have h1 := BitVec.getLsbD_append (x := (tag ++ opk) ++ opc) (y := opd) (i := i)
  have h2 := BitVec.getLsbD_append (x := tag ++ opk) (y := opc) (i := i - 64)
  have h3 := BitVec.getLsbD_append (x := tag) (y := opk) (i := i - 64 - 8)
  rw [h3] at h2
  rw [h2] at h1
  refine h1.trans ?_
  simp only [Nat.sub_sub, Nat.reduceAdd]
  split_ifs <;> first | rfl | omega

@[simp] theorem tagOf_cellOfFields (tag opk : BitVec 4) (opc : Opcode) (opd : BitVec 64) :
    tagOf (cellOfFields tag opk opc opd) = tag := by
  apply BitVec.eq_of_getLsbD_eq
  intro i hi
  simp only [tagOf, BitVec.getLsbD_extractLsb', getLsbD_cellOfFields, hi, decide_true, Bool.true_and]
  split_ifs <;> first | omega | (congr 1; omega)

@[simp] theorem opkOf_cellOfFields (tag opk : BitVec 4) (opc : Opcode) (opd : BitVec 64) :
    opkOf (cellOfFields tag opk opc opd) = opk := by
  apply BitVec.eq_of_getLsbD_eq
  intro i hi
  simp only [opkOf, BitVec.getLsbD_extractLsb', getLsbD_cellOfFields, hi, decide_true, Bool.true_and]
  split_ifs <;> first | omega | (congr 1; omega)

@[simp] theorem opcOf_cellOfFields (tag opk : BitVec 4) (opc : Opcode) (opd : BitVec 64) :
    opcOf (cellOfFields tag opk opc opd) = opc := by
  apply BitVec.eq_of_getLsbD_eq
  intro i hi
  simp only [opcOf, BitVec.getLsbD_extractLsb', getLsbD_cellOfFields, hi, decide_true, Bool.true_and]
  split_ifs <;> first | omega | (congr 1; omega)

@[simp] theorem opdOf_cellOfFields (tag opk : BitVec 4) (opc : Opcode) (opd : BitVec 64) :
    opdOf (cellOfFields tag opk opc opd) = opd := by
  apply BitVec.eq_of_getLsbD_eq
  intro i hi
  simp only [opdOf, BitVec.getLsbD_extractLsb', getLsbD_cellOfFields, hi, decide_true, Bool.true_and]
  split_ifs <;> first | omega | (congr 1; omega)

theorem cellOfFields_fields (w : CellWord) : cellOfFields (tagOf w) (opkOf w) (opcOf w) (opdOf w) = w := by
  apply BitVec.eq_of_getLsbD_eq
  intro i hi
  rw [getLsbD_cellOfFields]
  simp only [tagOf, opkOf, opcOf, opdOf, BitVec.getLsbD_extractLsb']
  split_ifs
  all_goals
    rw [decide_eq_true (by omega), Bool.true_and]
    congr 1
    omega

/-- Operand assembly and its inverse. -/
theorem decodeOperand_encode (o : Operand) : decodeOperand (operandKind o) (operandPayload o) = .ok o := by
  cases o <;> simp [decodeOperand, operandKind, operandPayload]

theorem decodeOperand_ok {k : BitVec 4} {d : BitVec 64} {o : Operand} (h : decodeOperand k d = .ok o) :
    operandKind o = k ∧ operandPayload o = d := by
  unfold decodeOperand at h
  split_ifs at h with h0 hd h1 h2
  all_goals
    simp only [Except.ok.injEq] at h
    subst h
    simp_all [operandKind, operandPayload]

end Sys2Proof
end

