-- ==== Sys2Proof/Laws/Exec.lean ====
section
/-! SUPPORT. What operands, the range check, each handler and a step can do, said once each. -/

namespace Sys2Proof.Machine

/-! ### Operands -/

@[simp] theorem resolve_lit (z : Word) (s : State) : resolve (.lit z) s = .ok (.int z) := rfl
@[simp] theorem resolve_absent (s : State) : resolve .absent s = .error .unresolvedAddress := rfl

theorem resolve_sym_of_bound {n : SymName} {v : Value} {s : State} (h : symLookup s n = some v) :
    resolve (.sym n) s = .ok v := by simp [resolve, h]

theorem resolve_sym_of_unbound {n : SymName} {s : State} (h : symLookup s n = none) :
    resolve (.sym n) s = .error .unresolvedAddress := by simp [resolve, h]

/-- An address is the literal itself or what the name is bound to. -/
theorem resolve_ok {o : Operand} {s : State} {a : Value} (h : resolve o s = .ok a) :
    (∃ z, o = .lit z ∧ a = .int z) ∨ (∃ n, o = .sym n ∧ symLookup s n = some a) := by
  cases o with
  | absent => simp at h
  | lit z => exact .inl ⟨z, rfl, by simpa using h.symm⟩
  | sym n =>
    refine .inr ⟨n, rfl, ?_⟩
    unfold resolve at h
    simp only at h
    split at h <;> simp_all

theorem resolve_error {o : Operand} {s : State} {c : Cause} (h : resolve o s = .error c) :
    c = .unresolvedAddress := by
  cases o with
  | absent => simpa using h.symm
  | lit z => simp at h
  | sym n => simp only [resolve] at h; split at h <;> simp_all

/-- `resolve` reads the Symbol Table and nothing else. -/
theorem resolve_congr (o : Operand) {s t : State} (h : ∀ n, symLookup s n = symLookup t n) :
    resolve o s = resolve o t := by
  cases o <;> simp [resolve, h]

section resolve_setters
variable (o : Operand) (s : State)
@[simp] theorem resolve_setPc (v : Value) : resolve o (s.setPc v) = resolve o s := resolve_congr o fun _ => rfl
@[simp] theorem resolve_setAr (v : Value) : resolve o (s.setAr v) = resolve o s := resolve_congr o fun _ => rfl
@[simp] theorem resolve_setIr (v : Value) : resolve o (s.setIr v) = resolve o s := resolve_congr o fun _ => rfl
@[simp] theorem resolve_setAcc (v : Value) : resolve o (s.setAcc v) = resolve o s := resolve_congr o fun _ => rfl
@[simp] theorem resolve_setB (v : Value) : resolve o (s.setB v) = resolve o s := resolve_congr o fun _ => rfl
@[simp] theorem resolve_setMem (m : Memory) : resolve o (s.setMem m) = resolve o s := resolve_congr o fun _ => rfl
@[simp] theorem resolve_setInQ (q : List DeviceValue) : resolve o (s.setInQ q) = resolve o s :=
  resolve_congr o fun _ => rfl
@[simp] theorem resolve_setDiag (d : Bool) : resolve o (s.setDiag d) = resolve o s := resolve_congr o fun _ => rfl
@[simp] theorem resolve_setBlocked (w : Bool) : resolve o (s.setBlocked w) = resolve o s := resolve_congr o fun _ => rfl
@[simp] theorem resolve_setFault (f : Option Cause) : resolve o (s.setFault f) = resolve o s :=
  resolve_congr o fun _ => rfl
end resolve_setters

@[simp] theorem toInt_int (z : Word) : toInt (.int z) = .ok z.toInt := rfl

theorem toInt_ok {v : Value} {x : Int} (h : toInt v = .ok x) : ∃ z : Word, v = .int z ∧ z.toInt = x := by
  cases v <;> simp_all [toInt]

theorem toInt_error {v : Value} {c : Cause} (h : toInt v = .error c) : c = .nonNumericOperand := by
  cases v <;> simp_all [toInt]

theorem toInt_of_not_int {v : Value} (h : ∀ z, v ≠ .int z) : toInt v = .error .nonNumericOperand := by
  cases v <;> simp_all [toInt]

@[simp] theorem writeAddress_int (n : Word) : writeAddress (.int n) = .ok n := rfl

theorem writeAddress_ok {a : Value} {n : Word} (h : writeAddress a = .ok n) : a = .int n := by
  cases a <;> simp_all [writeAddress]

theorem writeAddress_error {a : Value} {c : Cause} (h : writeAddress a = .error c) : c = .addressOutOfRange := by
  cases a <;> simp_all [writeAddress]

theorem writeAddress_of_not_int {a : Value} (h : ∀ n, a ≠ .int n) : writeAddress a = .error .addressOutOfRange := by
  cases a <;> simp_all [writeAddress]

theorem immediate_ok {o : Operand} {z : Word} (h : immediate o = .ok z) : o = .lit z := by
  cases o <;> simp_all [immediate]

theorem immediate_error {o : Operand} {c : Cause} (h : immediate o = .error c) : c = .nonNumericOperand := by
  cases o <;> simp_all [immediate]

/-! ### The range check -/

theorem inRange_iff {z : Int} : inRange z = true ↔ intMin ≤ z ∧ z ≤ intMax := by simp [inRange]

/-- The integer of a word always lies in the range. -/
theorem word_inRange (w : Word) : intMin ≤ w.toInt ∧ w.toInt ≤ intMax := by
  have h1 := BitVec.toInt_lt (x := w)
  have h2 := BitVec.le_toInt (x := w)
  simp only [intMin, intMax] at *
  omega

/-- A result in range is held exactly. -/
theorem narrow_eq_ok {z : Int} {r : Word} : narrow z = .ok r ↔ r.toInt = z := by
  unfold narrow
  constructor
  · intro h
    split at h
    next hr =>
      rw [inRange_iff] at hr
      simp only [Except.ok.injEq] at h
      subst h
      rw [BitVec.toInt_ofInt]
      simp only [intMin, intMax] at hr
      apply Int.bmod_eq_of_le <;> omega
    · simp at h
  · rintro rfl
    rw [if_pos (inRange_iff.2 (word_inRange r)), BitVec.ofInt_toInt]

theorem narrow_eq_error {z : Int} {c : Cause} :
    narrow z = .error c ↔ c = .integerOverflow ∧ (z < intMin ∨ intMax < z) := by
  unfold narrow
  split
  next h =>
    rw [inRange_iff] at h
    simp only [reduceCtorEq, false_iff]
    omega
  next h =>
    rw [inRange_iff] at h
    simp only [Except.error.injEq]
    constructor
    · rintro rfl
      exact ⟨rfl, by omega⟩
    · exact fun h => h.1.symm

/-- Floor division is the quotient of the one decomposition whose remainder has the divisor's sign (R93). -/
theorem floorDivide_eq {x y q m : Int} (hx : x = q * y + m) (hm : (0 ≤ m ∧ m < y) ∨ (y < m ∧ m ≤ 0)) :
    floorDivide x y = .ok q := by
  have hy : y ≠ 0 := by omega
  unfold floorDivide
  rw [if_neg hy]
  have hq : x.fdiv y = q := by
    rcases hm with hm | hm
    · rw [Int.fdiv_eq_ediv_of_nonneg _ (by omega), Int.ediv_eq_iff_of_pos (by omega)]
      constructor <;> nlinarith
    · have h : x.fdiv y = (-x).fdiv (-y) := by simp [Int.neg_fdiv_neg]
      rw [h, Int.fdiv_eq_ediv_of_nonneg _ (by omega), Int.ediv_eq_iff_of_pos (by omega)]
      constructor <;> nlinarith
  rw [hq]

/-- Every division by another divisor than 0 has such a decomposition (R93). -/
theorem exists_floorDivide (x : Int) {y : Int} (hy : y ≠ 0) :
    ∃ q m, floorDivide x y = .ok q ∧ x = q * y + m ∧ ((0 ≤ m ∧ m < y) ∨ (y < m ∧ m ≤ 0)) := by
  refine ⟨x.fdiv y, x.fmod y, by simp [floorDivide, hy], ?_, ?_⟩
  · rw [Int.mul_comm, Int.mul_fdiv_add_fmod]
  · rcases lt_or_gt_of_ne hy with h | h
    · have h1 := Int.fmod_nonneg_of_pos (-x) (b := -y) (by omega)
      have h2 := Int.fmod_lt_of_pos (-x) (b := -y) (by omega)
      rw [Int.neg_fmod_neg] at h1 h2
      exact .inr ⟨by omega, by omega⟩
    · exact .inl ⟨Int.fmod_nonneg_of_pos x h, Int.fmod_lt_of_pos x h⟩

/-! ### The handlers: what each can answer -/

/-- Everything `add`, `sub`, `mlt` and `div` can do. -/
theorem twoOperand_cases {op : Int → Int → Except Cause Int} {o : Operand} {s t : State}
    (h : twoOperand op o s = .next t) :
    (∃ c, resolve o s = .error c ∧ t = dispatchFailure c s) ∨
      (∃ a, resolve o s = .ok a ∧ memRead a s = none ∧ t = s.setBlocked true) ∨
      (∃ a v s1 c, resolve o s = .ok a ∧ memRead a s = some (v, s1) ∧ t = dispatchFailure c (s1.setB v)) ∨
      (∃ a s1 x y z r, resolve o s = .ok a ∧ memRead a s = some (.int y, s1) ∧ s1.acc = .int x ∧
        op x.toInt y.toInt = .ok z ∧ narrow z = .ok r ∧ t = (s1.setB (.int y)).setAcc (.int r)) := by
  unfold twoOperand at h
  rcases orRaise_next h with ⟨c, hc, rfl⟩ | ⟨a, ha, h⟩
  · exact .inl ⟨c, hc, rfl⟩
  rcases orWait_next h with ⟨hn, rfl⟩ | ⟨v, s1, hv, h⟩
  · exact .inr (.inl ⟨a, ha, hn, rfl⟩)
  refine .inr (.inr ?_)
  rcases orRaise_next h with ⟨c, -, ht⟩ | ⟨x, hx, hk⟩
  · exact .inl ⟨a, v, s1, c, ha, hv, ht⟩
  rcases orRaise_next hk with ⟨c, -, ht⟩ | ⟨y, hy, hk⟩
  · exact .inl ⟨a, v, s1, c, ha, hv, ht⟩
  rcases orRaise_next hk with ⟨c, -, ht⟩ | ⟨z, hz, hk⟩
  · exact .inl ⟨a, v, s1, c, ha, hv, ht⟩
  rcases orRaise_next hk with ⟨c, -, ht⟩ | ⟨r, hr, hk⟩
  · exact .inl ⟨a, v, s1, c, ha, hv, ht⟩
  have ht : t = (s1.setB v).setAcc (.int r) := by simpa using hk.symm
  obtain ⟨xw, hxw, rfl⟩ := toInt_ok hx
  obtain ⟨yw, rfl, rfl⟩ := toInt_ok hy
  exact .inr ⟨a, s1, xw, yw, z, r, ha, hv, hxw, hz, hr, ht⟩

/-- Everything `neg`, `inc` and `dec` can do. -/
theorem oneOperand_cases {op : Int → Int} {s t : State} (h : oneOperand op s = .next t) :
    (∃ c, t = dispatchFailure c s) ∨
      (∃ x r, s.acc = .int x ∧ narrow (op x.toInt) = .ok r ∧ t = s.setAcc (.int r)) := by
  unfold oneOperand at h
  rcases orRaise_next h with ⟨c, -, rfl⟩ | ⟨x, hx, h⟩
  · exact .inl ⟨c, rfl⟩
  rcases orRaise_next h with ⟨c, -, rfl⟩ | ⟨r, hr, hk⟩
  · exact .inl ⟨c, rfl⟩
  have ht : t = s.setAcc (.int r) := by simpa using hk.symm
  obtain ⟨xw, hxw, rfl⟩ := toInt_ok hx
  exact .inr ⟨xw, r, hxw, hr, ht⟩

theorem execSet_cases {o : Operand} {s t : State} (h : execSet o s = .next t) :
    (∃ c, t = dispatchFailure c s) ∨ (∃ z, o = .lit z ∧ t = s.setAcc (.int z)) := by
  rcases orRaise_next h with ⟨c, -, rfl⟩ | ⟨z, hz, h⟩
  · exact .inl ⟨c, rfl⟩
  · exact .inr ⟨z, immediate_ok hz, by simpa using h.symm⟩

theorem execLda_cases {o : Operand} {s t : State} (h : execLda o s = .next t) :
    (∃ c, resolve o s = .error c ∧ t = dispatchFailure c s) ∨
      (∃ a, resolve o s = .ok a ∧ memRead a (s.setAr a) = none ∧ t = (s.setAr a).setBlocked true) ∨
      (∃ a v s1, resolve o s = .ok a ∧ memRead a (s.setAr a) = some (v, s1) ∧ t = s1.setAcc v) := by
  rcases orRaise_next h with ⟨c, hc, rfl⟩ | ⟨a, ha, h⟩
  · exact .inl ⟨c, hc, rfl⟩
  rcases orWait_next h with ⟨hn, rfl⟩ | ⟨v, s1, hv, h⟩
  · exact .inr (.inl ⟨a, ha, hn, rfl⟩)
  · exact .inr (.inr ⟨a, v, s1, ha, hv, by simpa using h.symm⟩)

theorem execSta_cases {o : Operand} {s t : State} (h : execSta o s = .next t) :
    (∃ c, resolve o s = .error c ∧ t = dispatchFailure c s) ∨
      (∃ a c, resolve o s = .ok a ∧ memWrite a s.acc (s.setAr a) = .error c ∧ t = dispatchFailure c (s.setAr a)) ∨
      (∃ a, resolve o s = .ok a ∧ memWrite a s.acc (s.setAr a) = .ok t) := by
  rcases orRaise_next h with ⟨c, hc, rfl⟩ | ⟨a, ha, h⟩
  · exact .inl ⟨c, hc, rfl⟩
  rcases orRaise_next h with ⟨c, hc, rfl⟩ | ⟨s1, hs, h⟩
  · exact .inr (.inl ⟨a, c, ha, hc, rfl⟩)
  · simp only [Host.Outcome.next.injEq] at h
    subst h
    exact .inr (.inr ⟨a, ha, hs⟩)

theorem jump_cases {o : Operand} {s t : State} (h : jump o s = .next t) :
    (∃ c, resolve o s = .error c ∧ t = dispatchFailure c s) ∨ (∃ a, resolve o s = .ok a ∧ t = s.setPc a) := by
  rcases orRaise_next h with ⟨c, hc, rfl⟩ | ⟨a, ha, h⟩
  · exact .inl ⟨c, hc, rfl⟩
  · exact .inr ⟨a, ha, by simpa using h.symm⟩

theorem branchIf_cases {test : Int → Bool} {o : Operand} {s t : State} (h : branchIf test o s = .next t) :
    (∃ c, t = dispatchFailure c s) ∨ t = s ∨
      (∃ x a, s.acc = .int x ∧ test x.toInt = true ∧ resolve o s = .ok a ∧ t = s.setPc a) := by
  rcases orRaise_next h with ⟨c, -, rfl⟩ | ⟨x, hx, h⟩
  · exact .inl ⟨c, rfl⟩
  split at h
  next ht =>
    rcases jump_cases h with ⟨c, -, rfl⟩ | ⟨a, ha, rfl⟩
    · exact .inl ⟨c, rfl⟩
    · obtain ⟨xw, hxw, rfl⟩ := toInt_ok hx
      exact .inr (.inr ⟨xw, a, hxw, ht, ha, rfl⟩)
  · exact .inr (.inl (by simpa using h.symm))

theorem execBri_cases {o : Operand} {s t : State} (h : execBri o s = .next t) :
    (∃ c, resolve o s = .error c ∧ t = dispatchFailure c s) ∨
      (∃ a, resolve o s = .ok a ∧ memRead a (s.setAr a) = none ∧ t = (s.setAr a).setBlocked true) ∨
      (∃ a v s1 c, resolve o s = .ok a ∧ memRead a (s.setAr a) = some (v, s1) ∧ t = dispatchFailure c s1) ∨
      (∃ a v s1 p, resolve o s = .ok a ∧ memRead a (s.setAr a) = some (v, s1) ∧ resolveValue v s1 = .ok p ∧
        t = s1.setPc p) := by
  rcases orRaise_next h with ⟨c, hc, rfl⟩ | ⟨a, ha, h⟩
  · exact .inl ⟨c, hc, rfl⟩
  rcases orWait_next h with ⟨hn, rfl⟩ | ⟨v, s1, hv, h⟩
  · exact .inr (.inl ⟨a, ha, hn, rfl⟩)
  rcases orRaise_next h with ⟨c, -, rfl⟩ | ⟨p, hp, h⟩
  · exact .inr (.inr (.inl ⟨a, v, s1, c, ha, hv, rfl⟩))
  · exact .inr (.inr (.inr ⟨a, v, s1, p, ha, hv, hp, by simpa using h.symm⟩))

theorem execBrs_cases {o : Operand} {s t : State} (h : execBrs o s = .next t) :
    (∃ c, t = dispatchFailure c s) ∨
      (∃ n r s1, resolve o s = .ok (.int n) ∧ narrow (n.toInt + 1) = .ok r ∧
        memWrite (.int n) s.pc s = .ok s1 ∧ t = s1.setPc (.int r)) := by
  rcases orRaise_next h with ⟨c, -, rfl⟩ | ⟨a, ha, h⟩
  · exact .inl ⟨c, rfl⟩
  rcases orRaise_next h with ⟨c, -, rfl⟩ | ⟨n, hn, h⟩
  · exact .inl ⟨c, rfl⟩
  rcases orRaise_next h with ⟨c, -, rfl⟩ | ⟨r, hr, h⟩
  · exact .inl ⟨c, rfl⟩
  rcases orRaise_next h with ⟨c, -, rfl⟩ | ⟨s1, hs, h⟩
  · exact .inl ⟨c, rfl⟩
  · exact .inr ⟨n, r, s1, writeAddress_ok hn ▸ ha, hr, hs, by simpa using h.symm⟩

/-! ### The step -/

theorem step_of_not_running {s : State} (h : s.running = false) : step s = .next s := by
  simp [step, engineStep, h]

theorem step_of_blocked {s : State} (hr : s.running = true) (hb : s.blocked = true) : step s = resume s := by
  simp [step, engineStep, hr, hb]

theorem step_of_cycle {s : State} (hr : s.running = true) (hb : s.blocked = false) (hp : s.pc ≠ .int 0) :
    step s = cycle s := by
  simp only [step, engineStep, hr, hb, if_neg hp, if_true, Bool.false_eq_true, if_false]

/-- Everything an Execute phase can do. -/
theorem execute_cases {s t : State} (h : execute s = .next t) :
    (∃ e, decodeValue s.ir = .error e ∧ t = dispatchFailure .unknownMnemonic s) ∨
      (∃ i, decodeValue s.ir = .ok i ∧ exec i s = .next t) := by
  unfold execute at h
  split at h
  next i hi => exact .inr ⟨i, hi, h⟩
  next e he => exact .inl ⟨e, he, by simpa using h.symm⟩

/-- Everything a cycle can do up to the loop test: fail at the increment, or execute with the next PC in place. -/
theorem incrementAndExecute_cases {s t : State} (h : incrementAndExecute s = .next t) :
    ∃ p, s.pc = .int p ∧
      ((∃ c, narrow (p.toInt + 1) = .error c ∧ t = dispatchFailure c s) ∨
        (∃ q, narrow (p.toInt + 1) = .ok q ∧ execute (s.setPc (.int q)) = .next t)) := by
  unfold incrementAndExecute at h
  split at h
  next p hp => exact ⟨p, hp, orRaise_next h⟩
  all_goals simp at h

/-- Everything a step can do: nothing, the loop test alone, the rest of a waiting cycle, or a whole cycle. -/
theorem step_cases {s t : State} (h : step s = .next t) :
    (s.running = false ∧ t = s) ∨
      (s.running = true ∧ s.blocked = true ∧ s.inQ = [] ∧ t = s) ∨
      (s.running = true ∧ s.blocked = true ∧ s.inQ ≠ [] ∧ ∃ u, execute (s.setBlocked false) = .next u ∧ t = loopTest u) ∨
      (s.running = true ∧ s.blocked = false ∧ s.pc = .int 0 ∧ t = loopTest s) ∨
      (s.running = true ∧ s.blocked = false ∧ s.pc ≠ .int 0 ∧
        ∃ u, incrementAndExecute (fetch s) = .next u ∧ t = loopTest u) := by
  cases hr : s.running with
  | false => exact .inl ⟨rfl, by simpa [step_of_not_running hr] using h.symm⟩
  | true =>
    cases hb : s.blocked with
    | true =>
      rw [step_of_blocked hr hb] at h
      unfold resume at h
      split at h
      next hq => exact .inr (.inl ⟨rfl, rfl, hq, by simpa using h.symm⟩)
      next d q hq =>
        obtain ⟨u, hu, h⟩ := andThen_eq_next h
        exact .inr (.inr (.inl ⟨rfl, rfl, by simp [hq], u, hu, by simpa using h.symm⟩))
    | false =>
      by_cases hp : s.pc = .int 0
      · refine .inr (.inr (.inr (.inl ⟨rfl, rfl, hp, ?_⟩)))
        simpa [step, engineStep, hr, hb, hp] using h.symm
      · rw [step_of_cycle hr hb hp] at h
        obtain ⟨u, hu, h⟩ := andThen_eq_next h
        exact .inr (.inr (.inr (.inr ⟨rfl, rfl, hp, u, hu, by simpa using h.symm⟩)))

end Sys2Proof.Machine
end

