-- ==== Sys2Proof/Laws/PerInstr.lean ====
section
/-! SUPPORT. One fact about every instruction as syntax: the record its cell holds decodes to it. -/

namespace Sys2Proof.Laws.Record

/-- The instruction record of `i` selects the handler of `i` with its operand. -/
def Statement (i : Instr) : Prop := decodeValue i.record = .ok i

theorem set (o : Operand) : Statement (.set o) := rfl
theorem add (o : Operand) : Statement (.add o) := rfl
theorem sub (o : Operand) : Statement (.sub o) := rfl
theorem mlt (o : Operand) : Statement (.mlt o) := rfl
theorem div (o : Operand) : Statement (.div o) := rfl
theorem neg (o : Operand) : Statement (.neg o) := rfl
theorem inc (o : Operand) : Statement (.inc o) := rfl
theorem dec (o : Operand) : Statement (.dec o) := rfl
theorem lda (o : Operand) : Statement (.lda o) := rfl
theorem sta (o : Operand) : Statement (.sta o) := rfl
theorem br (o : Operand) : Statement (.br o) := rfl
theorem brp (o : Operand) : Statement (.brp o) := rfl
theorem brz (o : Operand) : Statement (.brz o) := rfl
theorem bri (o : Operand) : Statement (.bri o) := rfl
theorem brs (o : Operand) : Statement (.brs o) := rfl
theorem hlt (o : Operand) : Statement (.hlt o) := rfl

end Sys2Proof.Laws.Record
end

