-- ==== Sys2Proof/Machine/Loader.lean ====
section
/-! DEFINITION. The Loader's source syntax (spec 30_encoding.md R66 to R71): from lines of text to the accepted lines that
`loadProgram` places. The Loader is software outside the block (00_scope.md R4); nothing of the machine depends on this
file. Where the source text leaves the tokens open, log entry 14. -/

namespace Sys2Proof.Machine

/-- A blank between tokens. -/
def isBlank (c : Char) : Bool := c == ' ' || c == '\t'

def isLetter (c : Char) : Bool := decide ('a' ≤ c) && decide (c ≤ 'z') || decide ('A' ≤ c) && decide (c ≤ 'Z')

def isDigitChar (c : Char) : Bool := decide ('0' ≤ c) && decide (c ≤ '9')

/-- Mnemonics are folded to lower case; names keep theirs (R71 a). -/
def foldChar (c : Char) : Char := if decide ('A' ≤ c) && decide (c ≤ 'Z') then Char.ofNat (c.toNat + 32) else c

def skipBlanks (l : List Char) : List Char := l.dropWhile isBlank

/-- The number that decimal digits spell, most significant first. -/
def digitsValue (l : List Char) : Nat := l.foldl (fun n c => 10 * n + (c.toNat - 48)) 0

/-- An operand as the text has it: names not yet numbered, integers not yet in range. -/
inductive OperandText where
  | absent
  | lit (z : Int)
  | word (s : List Char)
deriving DecidableEq, Repr

/-- A line of the shape `[linenum.] [label,] mnemonic[,] [operand]` (R66), without the number. -/
structure LineText where
  label : Option (List Char)
  mnemonic : List Char
  operand : OperandText
deriving DecidableEq, Repr

/-- One operand token: digits, with a minus sign or without, are a literal, other letters and digits a name (R71 c, d). -/
def operandToken (t : List Char) : Option OperandText :=
  if t.all isDigitChar && !t.isEmpty then some (.lit (digitsValue t))
  else if t.head? = some '-' && t.tail.all isDigitChar && !t.tail.isEmpty then some (.lit (-(digitsValue t.tail : Int)))
  else if t.all (fun c => isLetter c || isDigitChar c) && !t.isEmpty then some (.word t)
  else none

/-- What may follow the mnemonic: nothing, or one operand token and nothing more (R67). -/
def operandPart (l : List Char) : Option OperandText :=
  match skipBlanks l with
  | [] => some .absent
  | c :: cs =>
    let token := (c :: cs).takeWhile fun c => !isBlank c
    if (skipBlanks ((c :: cs).dropWhile fun c => !isBlank c)).isEmpty then operandToken token else none

/-- `mnemonic[,] [operand]`: 2 to 5 letters, then the end, a comma or a blank (R66, R67). -/
def instructionPart (l : List Char) : Option (List Char × OperandText) :=
  let m := l.takeWhile isLetter
  if 2 ≤ m.length ∧ m.length ≤ 5 then
    match l.dropWhile isLetter with
    | [] => some (m, .absent)
    | c :: cs =>
      if c = ',' ∨ isBlank c = true then (operandPart cs).map fun o => (m, o) else none
  else none

/-- `[label,] mnemonic[,] [operand]`: letters followed at once by a comma are a label whenever the rest has the shape of
an instruction, and the mnemonic otherwise (R71 b). -/
def labelledPart (l : List Char) : Option LineText :=
  let unlabelled := (instructionPart l).map fun p => ⟨none, p.1, p.2⟩
  match l.dropWhile isLetter with
  | [] => unlabelled
  | c :: cs =>
    if c = ',' ∧ (l.takeWhile isLetter).isEmpty = false then
      match instructionPart (skipBlanks cs) with
      | some p => some ⟨some (l.takeWhile isLetter), p.1, p.2⟩
      | none => unlabelled
    else unlabelled

/-- The line without its line number, digits followed by a period (R66, R67). -/
def withoutLineNumber (l : List Char) : List Char :=
  match l.dropWhile isDigitChar with
  | [] => l
  | c :: cs => if c = '.' ∧ (l.takeWhile isDigitChar).isEmpty = false then skipBlanks cs else l

/-- One source line: `none` if it is blank, a comment or malformed (R68, R69). -/
def parseLine (p : LoaderParams) (l : List Char) : Option LineText :=
  if l.head? = some p.commentChar then none else labelledPart (withoutLineNumber (skipBlanks l))

/-- The opcode of a mnemonic folded to lower case, 0x00 if it is none of the sixteen (R63, R70). -/
def opcodeOfMnemonic (m : List Char) : Opcode :=
  match opcodeTable.find? fun row => decide (row.mnemonic.toList = m.map foldChar) with
  | some row => opcOf row.pattern
  | none => 0x00

/-- The index of a name, and the names with it: one index for each spelling (30_encoding.md R59). -/
def numberName (names : List (List Char)) (s : List Char) : SymName × List (List Char) :=
  if s ∈ names then (BitVec.ofNat 64 (names.idxOf s), names) else (BitVec.ofNat 64 names.length, names ++ [s])

/-- An operand with its name numbered; `none` for a literal out of range. -/
def numberOperand (names : List (List Char)) : OperandText → Option (Operand × List (List Char))
  | .absent => some (.absent, names)
  | .lit z => if intMin ≤ z ∧ z ≤ intMax then some (.lit (BitVec.ofInt 64 z), names) else none
  | .word s => some (.sym (numberName names s).1, (numberName names s).2)

/-- A parsed line as the Loader stores it, and the names known after it. -/
def assembleLine (names : List (List Char)) (t : LineText) : Option (SourceLine × List (List Char)) :=
  match t.label with
  | none =>
    (numberOperand names t.operand).map fun o => (⟨none, opcodeOfMnemonic t.mnemonic, o.1⟩, o.2)
  | some s =>
    (numberOperand (numberName names s).2 t.operand).map fun o =>
      (⟨some (numberName names s).1, opcodeOfMnemonic t.mnemonic, o.1⟩, o.2)

/-- All lines, the skipped ones as `none`; no answer if a literal is out of range. -/
def assembleLines (p : LoaderParams) : List (List Char) → List (List Char) → Option (List (Option SourceLine))
  | _, [] => some []
  | names, l :: ls =>
    match parseLine p l with
    | none => (assembleLines p names ls).map fun r => none :: r
    | some t =>
      match assembleLine names t with
      | none => none
      | some (line, names') => (assembleLines p names' ls).map fun r => some line :: r

/-- The Loader on the lines of a program: the two reserved names have indices 0 and 1, the program's own those from 2
up. -/
def loadSource (p : LoaderParams) (text : List (List Char)) (s : State) : Result :=
  match assembleLines p [p.nameIn, p.nameOut] text with
  | some ls => loadProgram ls s
  | none => .refused .literalOutOfRange

end Sys2Proof.Machine
end

