-- ==== Sys2Proof/Tests/Slice0.lean ====
section
/-! SUPPORT. Tests with results from the spec (the vectors of 95_test_vectors.md, named in each comment), and for every
obligation with hypotheses a witness that they can be met together. -/

namespace Sys2Proof.Tests

open Sys2Proof.Machine

/-! ### Helpers -/

/-- A state inside a run, at the start of a cycle with PC 3: `acc`, memory with MLEN 12 and the cells given, name 2 bound
to 5, the input `q` queued. -/
def at3 (acc : Value) (cells : List (Nat × Value)) (q : List DeviceValue) : State :=
  { State.reset with pc := .int 3, acc := acc, mem := ⟨cells, 12⟩, sym := reservedNames ++ [(2, .int 5)], inQ := q }

/-- Does a next state come out, and does `p` hold of it? -/
def nextWith (r : Result) (p : State → Bool) : Bool :=
  match r with
  | .next t => p t
  | .fault _ => false
  | .refused _ => false

theorem exists_of_nextWith {r : Result} {p : State → Bool} (h : nextWith r p = true) :
    ∃ t, r = .next t ∧ p t = true := by
  cases r with
  | next t => exact ⟨t, rfl, h⟩
  | fault f => simp [nextWith] at h
  | refused q => simp [nextWith] at h

/-- One step that runs the instruction of a table word. -/
def run1 (w : Nat) (s : State) : Result := step (s.withFetchWord 80 w)

def accIs (v : Value) (t : State) : Bool := decide (t.acc = v) && decide (t.fault = none)
def accBIs (v b : Value) (t : State) : Bool := accIs v t && decide (t.b = b)
def pcIs (v : Word) (t : State) : Bool := decide (t.pc = .int v) && decide (t.fault = none)
def failed (c : Cause) (t : State) : Bool := decide (t.fault = some c) && t.endedByFailure
def cellIs (n : Int) (v : Value) (len : Nat) (t : State) : Bool :=
  decide (t.mem.read n = v) && decide (t.mem.len = len)

/-- A state that no run reaches: name 2 is bound to a bound name and no integer. -/
def unreachable : State := { at3 .unset [] [] with sym := reservedNames ++ [(2, .name 3), (3, .int 5)] }

def minWord : Word := 0x8000000000000000
def maxWord : Word := 0x7FFFFFFFFFFFFFFF

/-! ### WellFormed: an ill-formed term for each check, refused (R55) -/

theorem test_wellFormed_refuses_set : (Instr.set .absent).wellFormed = false ∧ (Instr.set (.sym 2)).wellFormed = false :=
  by decide
theorem test_wellFormed_refuses_arith : (Instr.add .absent).wellFormed = false ∧ (Instr.sub .absent).wellFormed = false ∧
    (Instr.mlt .absent).wellFormed = false ∧ (Instr.div .absent).wellFormed = false := by decide
theorem test_wellFormed_refuses_move : (Instr.lda .absent).wellFormed = false ∧ (Instr.sta .absent).wellFormed = false :=
  by decide
theorem test_wellFormed_refuses_branch : (Instr.br .absent).wellFormed = false ∧ (Instr.brp .absent).wellFormed = false ∧
    (Instr.brz .absent).wellFormed = false ∧ (Instr.bri .absent).wellFormed = false ∧
    (Instr.brs .absent).wellFormed = false := by decide
theorem test_wellFormed_accepts : (Instr.set (.lit 5)).wellFormed = true ∧ (Instr.br (.sym 2)).wellFormed = true ∧
    (Instr.hlt .absent).wellFormed = true ∧ (Instr.neg (.lit 99)).wellFormed = true := by decide

/-! ### Decode: TAG, OPK, OPC, OPD written out from R56 and the opcode column of R62 -/

/-- The four fields side by side, the most significant first (R56). -/
def w80 (tag opk opc opd : Nat) : Nat := tag * 2 ^ 76 + opk * 2 ^ 72 + opc * 2 ^ 64 + opd

theorem test_decode_set : decodeTableWord 80 (w80 0b0011 0b0001 0b00000001 5) = some (.set (.lit 5)) := by decide
theorem test_decode_add : decodeTableWord 80 (w80 0b0011 0b0001 0b00000010 10) = some (.add (.lit 10)) := by decide
theorem test_decode_sub : decodeTableWord 80 (w80 0b0011 0b0001 0b00000011 8) = some (.sub (.lit 8)) := by decide
theorem test_decode_mlt : decodeTableWord 80 (w80 0b0011 0b0001 0b00000100 9) = some (.mlt (.lit 9)) := by decide
theorem test_decode_div : decodeTableWord 80 (w80 0b0011 0b0001 0b00000101 9) = some (.div (.lit 9)) := by decide
theorem test_decode_neg : decodeTableWord 80 (w80 0b0011 0b0000 0b00000110 0) = some (.neg .absent) := by decide
theorem test_decode_inc : decodeTableWord 80 (w80 0b0011 0b0000 0b00000111 0) = some (.inc .absent) := by decide
theorem test_decode_dec : decodeTableWord 80 (w80 0b0011 0b0000 0b00001000 0) = some (.dec .absent) := by decide
theorem test_decode_lda : decodeTableWord 80 (w80 0b0011 0b0001 0b00001001 0xFFFFFFFFFFFFFFFF) = some (.lda (.lit (-1))) :=
  by decide
theorem test_decode_sta : decodeTableWord 80 (w80 0b0011 0b0010 0b00001010 1) = some (.sta (.sym 1)) := by decide
theorem test_decode_br : decodeTableWord 80 (w80 0b0011 0b0010 0b00001011 2) = some (.br (.sym 2)) := by decide
theorem test_decode_brp : decodeTableWord 80 (w80 0b0011 0b0001 0b00001100 9) = some (.brp (.lit 9)) := by decide
theorem test_decode_brz : decodeTableWord 80 (w80 0b0011 0b0010 0b00001101 3) = some (.brz (.sym 3)) := by decide
theorem test_decode_bri : decodeTableWord 80 (w80 0b0011 0b0001 0b00001110 7) = some (.bri (.lit 7)) := by decide
theorem test_decode_brs : decodeTableWord 80 (w80 0b0011 0b0010 0b00001111 2) = some (.brs (.sym 2)) := by decide
theorem test_decode_hlt : decodeTableWord 80 (w80 0b0011 0b0000 0b00010000 0) = some (.hlt .absent) := by decide
/-- E12 to E18: no handler, or no legal word. -/
theorem test_decode_refuses : decodeTableWord 80 0x30000000000000000000 = none ∧
    decodeTableWord 80 0x31110000000000000001 = none ∧ decodeTableWord 80 0x40000000000000000000 = none ∧
    decodeTableWord 80 0x33010000000000000000 = none ∧ decodeTableWord 80 0x10010000000000000005 = none ∧
    decodeTableWord 80 0x30100000000000000001 = none := by decide
/-- No two rows of the opcode table overlap (R65). -/
theorem test_table_rows_disjoint :
    opcodeTable.Pairwise fun x y => x.pattern &&& y.mask ≠ y.pattern &&& x.mask := by decide

/-! ### Operands and memory: M3 to M18 of 95_test_vectors.md -/

/-- The start of table 2.2: `SYM[2] = Int(5)`, MLEN 8, `MEM[5] = Int(9)`, `MEM[6] = Name(2)`. -/
def sM : State :=
  { State.reset with mem := ⟨[(5, .int 9), (6, .name 2)], 8⟩, sym := reservedNames ++ [(2, .int 5)] }

/-- M3 to M7. -/
theorem test_resolve : resolve (.sym 2) sM = .ok (.int 5) ∧ resolve (.sym 0) sM = .ok (.int 0) ∧
    resolve (.sym 3) sM = .error .unresolvedAddress ∧ resolveValue (.name 2) sM = .ok (.int 5) := by decide
/-- M8 and M9. -/
theorem test_memRead : memRead (.int 5) sM = some (.int 9, sM) ∧ memRead (.int 8) sM = some (.unset, sM) ∧
    memRead (.int 1000000) sM = some (.unset, sM) ∧ memRead (.int (-1)) sM = some (.unset, sM) := by decide
/-- M10 and M11. -/
theorem test_memRead_device :
    memRead (.int 0) (sM.setInQ [.int 4, .name 2]) = some (.int 4, sM.setInQ [.name 2]) ∧ memRead (.int 0) sM = none := by
  decide
/-- M12 to M14: the canonical form lists neither the cell set to `Unset` nor the cells grown over. -/
theorem test_memWrite : memWrite (.int 5) .unset sM = .ok (sM.setMem ⟨[(6, .name 2)], 8⟩) ∧
    memWrite (.int 8) (.int 1) sM = .ok (sM.setMem ⟨[(5, .int 9), (6, .name 2), (8, .int 1)], 9⟩) ∧
    memWrite (.int 11) (.int 1) sM = .ok (sM.setMem ⟨[(5, .int 9), (6, .name 2), (11, .int 1)], 12⟩) := by decide
/-- M15 and M16. -/
theorem test_memWrite_device : memWrite (.int 0) (.instr 0x10 .absent) sM = .ok (sM.setOutLog [.instr 0x10 .absent]) ∧
    memWrite (.int (-1)) (.int 1) sM = .error .addressOutOfRange := by decide
/-- M17. -/
theorem test_memWrite_capacity :
    memWrite (.int 100) (.int 1) (State.construct ⟨some 100, none⟩) = .error .addressOutOfRange ∧
    memWrite (.int 100) (.int 1) (State.construct ⟨some 101, none⟩) =
      .ok ((State.construct ⟨some 101, none⟩).setMem ⟨[(100, .int 1)], 101⟩) := by decide

/-! ### One step for each instruction: V10 to V90 -/

/-- V11. -/
theorem test_set : nextWith (run1 0x3101FFFFFFFFFFFFFFF9 (at3 (.int 3) [] [])) (accIs (.int (-7))) = true := by decide
/-- V13. -/
theorem test_set_name : nextWith (run1 0x32010000000000000002 (at3 (.int 3) [] []))
    (fun t => failed .nonNumericOperand t && decide (t.acc = .int 3)) = true := by decide
/-- V15, with `AR` unchanged by the handler. -/
theorem test_add : nextWith (run1 0x3102000000000000000A (at3 (.int 5) [(10, .int 5)] []))
    (fun t => accBIs (.int 10) (.int 5) t && decide (t.ar = .int 3)) = true := by decide
/-- V21: the input is consumed although ACC cannot be coerced. -/
theorem test_add_device : nextWith (run1 0x31020000000000000000 (at3 .unset [] [.int 7]))
    (fun t => failed .nonNumericOperand t && decide (t.b = .int 7) && decide (t.inQ = [])) = true := by decide
/-- V23. -/
theorem test_sub : nextWith (run1 0x31030000000000000008 (at3 (.int 3) [(8, .int 5)] []))
    (accBIs (.int (-2)) (.int 5)) = true := by decide
/-- V25. -/
theorem test_sub_overflow : nextWith (run1 0x31030000000000000008 (at3 (.int 0) [(8, .int minWord)] []))
    (failed .integerOverflow) = true := by decide
/-- V27. -/
theorem test_mlt : nextWith (run1 0x31040000000000000009 (at3 (.int (-6)) [(9, .int 7)] []))
    (accBIs (.int (-42)) (.int 7)) = true := by decide
/-- V30: `2^32 * 2^31`. -/
theorem test_mlt_overflow : nextWith (run1 0x31040000000000000009 (at3 (.int 4294967296) [(9, .int 2147483648)] []))
    (failed .integerOverflow) = true := by decide
/-- V33: `-7 / 2` is -4. -/
theorem test_div : nextWith (run1 0x31050000000000000009 (at3 (.int (-7)) [(9, .int 2)] []))
    (accBIs (.int (-4)) (.int 2)) = true := by decide
/-- V33: `7 / -2` is -4 and `-7 / -2` is 3. -/
theorem test_div_signs :
    nextWith (run1 0x31050000000000000009 (at3 (.int 7) [(9, .int (-2))] [])) (accIs (.int (-4))) = true ∧
    nextWith (run1 0x31050000000000000009 (at3 (.int (-7)) [(9, .int (-2))] [])) (accIs (.int 3)) = true := by decide
/-- V41: with an operand that is ignored. -/
theorem test_neg : nextWith (run1 0x31060000000000000063 (at3 (.int 4) [] [])) (accIs (.int (-4))) = true := by decide
/-- V39. -/
theorem test_neg_overflow : nextWith (run1 0x30060000000000000000 (at3 (.int minWord) [] []))
    (fun t => failed .integerOverflow t && decide (t.acc = .int minWord)) = true := by decide
/-- V42. -/
theorem test_inc : nextWith (run1 0x30070000000000000000 (at3 (.int (-1)) [] [])) (accIs (.int 0)) = true := by decide
/-- V44. -/
theorem test_inc_name : nextWith (run1 0x30070000000000000000 (at3 (.name 2) [] []))
    (failed .nonNumericOperand) = true := by decide
/-- V43. -/
theorem test_dec : nextWith (run1 0x30080000000000000000 (at3 (.int 0) [] [])) (accIs (.int (-1))) = true := by decide
/-- V43. -/
theorem test_dec_overflow : nextWith (run1 0x30080000000000000000 (at3 (.int minWord) [] []))
    (failed .integerOverflow) = true := by decide
/-- V53. -/
theorem test_lda_device : nextWith (run1 0x32090000000000000000 (at3 .unset [] [.name 5]))
    (fun t => accIs (.name 5) t && decide (t.ar = .int 0) && decide (t.inQ = [])) = true := by decide
/-- V55: AR keeps the fetch address. -/
theorem test_lda_unbound : nextWith (run1 0x32090000000000000009 (at3 (.int 1) [] []))
    (fun t => failed .unresolvedAddress t && decide (t.ar = .int 3) && decide (t.acc = .int 1)) = true := by decide
/-- V57, with MLEN 12: `sta 20` grows memory to 21 cells. -/
theorem test_sta : nextWith (run1 0x310A0000000000000014 (at3 (.int 5) [] []))
    (fun t => cellIs 20 (.int 5) 21 t && cellIs 19 .unset 21 t && decide (t.ar = .int 20)) = true := by decide
/-- V61. -/
theorem test_sta_negative : nextWith (run1 0x310AFFFFFFFFFFFFFFFF (at3 (.int 6) [] []))
    (fun t => failed .addressOutOfRange t && decide (t.ar = .int (-1)) && decide (t.mem.len = 12)) = true := by decide
/-- V71. -/
theorem test_br : nextWith (run1 0x320B0000000000000002 (at3 .unset [] [])) (pcIs 5) = true := by decide
/-- V74: a branch to 0 ends the run with no fault. -/
theorem test_br_zero : nextWith (run1 0x320B0000000000000000 (at3 .unset [] [])) State.endedNormally = true := by decide
/-- V75. -/
theorem test_brp : nextWith (run1 0x310C0000000000000009 (at3 (.int 1) [] [])) (pcIs 9) = true ∧
    nextWith (run1 0x310C0000000000000009 (at3 (.int 0) [] [])) (pcIs 4) = true := by decide
/-- V77. -/
theorem test_brp_unset : nextWith (run1 0x310C0000000000000009 (at3 .unset [] [])) (failed .nonNumericOperand) = true :=
  by decide
/-- V76. -/
theorem test_brz : nextWith (run1 0x310D0000000000000009 (at3 (.int 0) [] [])) (pcIs 9) = true ∧
    nextWith (run1 0x310D0000000000000009 (at3 (.int (-1)) [] [])) (pcIs 4) = true := by decide
/-- V78 and V79. -/
theorem test_brz_unbound : nextWith (run1 0x320D0000000000000003 (at3 (.int 1) [] [])) (pcIs 4) = true ∧
    nextWith (run1 0x320D0000000000000003 (at3 (.int 0) [] [])) (failed .unresolvedAddress) = true := by decide
/-- V81. -/
theorem test_bri : nextWith (run1 0x310E0000000000000007 (at3 .unset [(7, .name 2)] []))
    (fun t => pcIs 5 t && decide (t.ar = .int 7)) = true := by decide
/-- V82. -/
theorem test_bri_record : nextWith (run1 0x310E0000000000000007 (at3 .unset [(7, .instr 0x10 .absent)] []))
    (fun t => failed .unresolvedAddress t && decide (t.ar = .int 7)) = true := by decide
/-- V84, at address 3: the cell gets 4. -/
theorem test_brs : nextWith (run1 0x320F0000000000000002 (at3 .unset [] []))
    (fun t => pcIs 6 t && cellIs 5 (.int 4) 12 t && decide (t.ar = .int 3)) = true := by decide
/-- V88, and the row of code 6 in 60_exceptions.md R114, "not an integer": nothing is rebound or stored. -/
theorem test_brs_fails : nextWith (run1 0x310F7FFFFFFFFFFFFFFF (at3 .unset [] []))
      (fun t => failed .integerOverflow t && decide (t.mem.len = 12)) = true ∧
    nextWith (exec (.brs (.sym 2)) unreachable) (fun t => decide (t.fault = some .addressOutOfRange) &&
      decide (t.pc = .int 0) && decide (t.sym = unreachable.sym) && decide (t.mem = unreachable.mem)) = true := by decide
/-- V89. -/
theorem test_hlt : nextWith (run1 0x30100000000000000000 (at3 (.int 10) [] []))
    (fun t => t.endedNormally && decide (t.acc = .int 10) && decide (t.ar = .int 3)) = true := by decide
/-- V90. -/
theorem test_hlt_operand : nextWith (run1 0x32100000000000000003 (at3 .unset [] [])) State.endedNormally = true := by
  decide

/-! ### The cycle: V1 to V5, P6, the wait of R129, the Loader of S8 -/

/-- P6: a run on empty memory. -/
theorem test_empty_run : nextWith (step State.reset)
    (fun t => failed .unknownMnemonic t && decide (t.ar = .int 1) && decide (t.ir = .unset)) = true := by decide
/-- V3 with E14. -/
theorem test_no_handler : nextWith (run1 0x30FF0000000000000000 (at3 .unset [] []))
    (fun t => failed .unknownMnemonic t && decide (t.ir = .instr 0xFF .absent)) = true := by decide
/-- V4, the second cycle. -/
theorem test_increment_overflow : nextWith (step ((at3 .unset [] []).setPc (.int maxWord)))
    (fun t => failed .integerOverflow t && decide (t.ar = .int maxWord)) = true := by decide
/-- V5, the second cycle. -/
theorem test_negative_pc : nextWith (step ((at3 .unset [] []).setPc (.int (-3))))
    (fun t => failed .unknownMnemonic t && decide (t.ar = .int (-3))) = true := by decide

/-- V54, at address 3: after the step that waits. -/
def sWait : State :=
  { at3 .unset [(3, .instr 0x09 (.lit 0))] [] with pc := .int 4, ar := .int 0, ir := .instr 0x09 (.lit 0), blocked := true }

theorem test_wait : nextWith (run1 0x31090000000000000000 (at3 .unset [] [])) (fun t => decide (t = sWait)) = true := by
  decide
theorem test_resume : nextWith (step (supplyInput (.int 41) sWait))
    (fun t => accIs (.int 41) t && decide (t.inQ = []) && decide (t.blocked = false)) = true := by decide

/-- A first instruction after reset, placed by `withFetchWord`: S1. -/
theorem test_first_after_reset : nextWith (run1 0x31010000000000000005 State.reset)
    (fun t => accIs (.int 5) t && pcIs 2 t) = true := by decide

/-- S8, with a label on the second line. -/
def sourceS8 : List (Option SourceLine) := [some ⟨none, 0x01, .lit 5⟩, none, some ⟨some 2, 0x10, .absent⟩]

theorem test_loader : nextWith (loadProgram sourceS8 (State.construct Params.unbounded))
    (fun t => decide (t.mem = ⟨[(1, .instr 0x01 (.lit 5)), (2, .instr 0x10 .absent)], 3⟩) &&
      decide (symLookup t 2 = some (.int 2))) = true := by decide

/-- Spellings of the open parameters, for the tests alone. -/
def loaderParams : LoaderParams := ⟨';', ['I', 'N'], ['O', 'U', 'T']⟩

/-- S9 (a forward reference), S8 (a malformed line), a comment, and a literal with a minus sign (90_conflicts.md C3). -/
theorem test_assemble : assembleLines loaderParams [['I', 'N'], ['O', 'U', 'T']]
    ["br end".toList, "; a comment".toList, "set -7".toList, "?? !!".toList, "20. end, HLT".toList, "sta OUT".toList] =
    some [some ⟨none, 0x0B, .sym 2⟩, none, some ⟨none, 0x01, .lit (-7)⟩, none, some ⟨some 2, 0x10, .absent⟩,
      some ⟨none, 0x0A, .sym 1⟩] := by decide
/-- OAM's own `set, 5` has no label (S7); R14's token `12ab` is a name; an unknown mnemonic has opcode 0x00 (R63). -/
theorem test_parseLine : parseLine loaderParams "set, 5".toList = some ⟨none, "set".toList, .lit 5⟩ ∧
    parseLine loaderParams "lda 12ab".toList = some ⟨none, "lda".toList, .word "12ab".toList⟩ ∧
    parseLine loaderParams "set 5 6".toList = none ∧ opcodeOfMnemonic "jump".toList = 0x00 := by decide

/-! ### Witnesses: the hypotheses of each obligation met together, each clause at a boundary of its range -/

/-- A small machine: memory of at most 3 cells, names 0 to 2. -/
def small : Params := ⟨some 3, some 3⟩

theorem witness_LegalWordsAndValues : ∃ w v, decodeCell w = .ok v :=
  ⟨0x3101FFFFFFFFFFFFFFF9, .instr 0x01 (.lit (-7)), by decide⟩
theorem witness_TableRow : ∃ w v row, decodeCell w = .ok v ∧ row ∈ opcodeTable :=
  ⟨0x30100000000000000000, .instr 0x10 .absent, ⟨"hlt", 0x30100000000000000000, opcodeMask⟩, by decide⟩
theorem witness_ConstructedMachine : Params.unbounded.wf = true ∧ (⟨some 0, some 2⟩ : Params).wf = true ∧
    (⟨some (2 ^ 63), some (2 ^ 64)⟩ : Params).wf = true := by decide
theorem witness_RunStart : (State.construct small).running = false := by decide
theorem witness_HostDuringARun : State.reset.running = true := by decide
theorem witness_HostBetweenRuns : (State.construct small).running = false ∧
    memWrite (.int 2) .unset (State.construct small) = .ok ((State.construct small).setMem ⟨[], 3⟩) ∧
    memWrite (.int 3) .unset (State.construct small) = .error .addressOutOfRange ∧
    (2 : SymName) ≠ nameIn ∧ (2 : SymName) ≠ nameOut ∧ small.hasSlot (2 : SymName).toNat = true ∧
    (3 : SymName) ≠ nameIn ∧ (3 : SymName) ≠ nameOut ∧ small.hasSlot (3 : SymName).toNat = false := by decide
theorem witness_Loader : ∃ t, loadProgram sourceS8 (State.construct Params.unbounded) = .next t ∧
    (sourceS8.filterMap id)[1]? = some ⟨some 2, 0x10, .absent⟩ :=
  (exists_of_nextWith (p := fun _ => true) (by decide)).imp fun _ h => ⟨h.1, by decide⟩
theorem witness_Resolve : symLookup sM 2 = some (.int 5) ∧ symLookup sM 3 = none := by decide
theorem witness_MemRead : (sM.setInQ [.int 4]).inQ = .int 4 :: [] ∧ sM.inQ = [] ∧
    symLookup sM 2 = some (.int 5) ∧ symLookup sM 3 = none ∧
    ((1 : Word) ≠ 0 ∧ 0 ≤ (1 : Word).toInt ∧ (1 : Word).toInt < sM.mem.len) ∧
    ((7 : Word) ≠ 0 ∧ 0 ≤ (7 : Word).toInt ∧ (7 : Word).toInt < sM.mem.len) ∧
    ((8 : Word) ≠ 0 ∧ sM.mem.len ≤ (8 : Word).toInt) ∧ (maxWord ≠ 0 ∧ sM.mem.len ≤ maxWord.toInt) ∧
    (-1 : Word).toInt < 0 ∧ minWord.toInt < 0 := by decide
theorem witness_MemWrite : symLookup sM 2 = some (.int 5) ∧ symLookup sM 3 = none ∧
    ((1 : Word) ≠ 0 ∧ 0 ≤ (1 : Word).toInt ∧ (1 : Word).toInt < sM.mem.len) ∧
    ((2 : Word) ≠ 0 ∧ 0 ≤ (2 : Word).toInt ∧ small.hasCell (2 : Word).toInt.toNat = true) ∧
    (((State.construct small).mem.len : Int) ≤ (3 : Word).toInt ∧ (3 : Word) ≠ 0 ∧
      small.hasCell (3 : Word).toInt.toNat = false) ∧
    (maxWord ≠ 0 ∧ 0 ≤ maxWord.toInt ∧ sM.params.hasCell maxWord.toInt.toNat = true) ∧
    (-1 : Word).toInt < 0 ∧ minWord.toInt < 0 := by decide
theorem witness_Growth : ((8 : Word) ≠ 0 ∧ sM.mem.len ≤ (8 : Word).toInt ∧ sM.params.hasCell 8 = true) ∧
    ((11 : Word) ≠ 0 ∧ sM.mem.len ≤ (11 : Word).toInt ∧ sM.params.hasCell 11 = true ∧ sM.mem.len ≤ 10 ∧ 7 < sM.mem.len) ∧
    small.hasCell 1 = true := by decide
theorem witness_GrowthLoop : sM.mem.wf = true ∧ sM.mem.len ≤ 8 ∧ sM.mem.len ≤ 11 := by decide
theorem witness_ReadsAfterWrites : (1 : Word) ≠ 0 ∧
    memWrite (.int 1) (.int 6) (State.construct small) = .ok ((State.construct small).setMem ⟨[(1, .int 6)], 2⟩) ∧
    (2 : Word) ≠ 0 := by decide
theorem witness_Unset : State.reset.ir = .unset ∧
    (resolve (.lit 7) sM = .ok (.int 7) ∧ Value.int 7 ≠ .int 0 ∧ memPeek (.int 7) sM = .unset) ∧
    (resolve (.sym 2) sM = .ok (.int 5) ∧ (5 : Word) ≠ 0 ∧ sM.acc = .unset ∧
      memWrite (.int 5) .unset sM = .ok (sM.setMem ⟨[(6, .name 2)], 8⟩)) ∧
    resolve (.sym 1) sM = .ok (.int 0) := by decide

/-- The hypotheses that the two-operand instructions share, for ACC `x` and a cell 10 that holds `y`. -/
def operands (x y : Word) : Prop :=
  resolve (.lit 10) (at3 (.int x) [(10, .int y)] []) = .ok (.int 10) ∧
  memRead (.int 10) (at3 (.int x) [(10, .int y)] []) = some (.int y, at3 (.int x) [(10, .int y)] []) ∧
  (at3 (.int x) [(10, .int y)] []).acc = .int x

theorem operands_met (x y : Word) : operands x y := ⟨rfl, rfl, rfl⟩

theorem witness_AddSubMlt : maxWord.toInt = (maxWord - 1).toInt + (1 : Word).toInt ∧
    minWord.toInt = (minWord + 1).toInt - (1 : Word).toInt ∧ minWord.toInt = minWord.toInt * (1 : Word).toInt ∧
    operands (maxWord - 1) 1 ∧ operands (minWord + 1) 1 ∧ operands minWord 1 :=
  ⟨by decide, by decide, by decide, operands_met _ _, operands_met _ _, operands_met _ _⟩
/-- Divisors 1 and -1 at the ends of the range, and of the sign clauses one row of R93 each: -7 by 2, 7 by -2. -/
theorem witness_Div : (1 : Word).toInt ≠ 0 ∧ (-1 : Word).toInt ≠ 0 ∧ (2 : Word).toInt ≠ 0 ∧ (-2 : Word).toInt ≠ 0 ∧
    ¬ ((minWord + 1).toInt = intMin ∧ (-1 : Word).toInt = -1) ∧ ¬ (minWord.toInt = intMin ∧ (-2 : Word).toInt = -1) ∧
    ((-7 : Word).toInt = -4 * (2 : Word).toInt + 1 ∧ (1 : Int) < (2 : Word).toInt) ∧
    ((7 : Word).toInt = -4 * (-2 : Word).toInt + (-1) ∧ (-2 : Word).toInt < -1) ∧
    operands (minWord + 1) (-1) ∧ operands minWord (-2) ∧ operands minWord 1 ∧ operands (-7) 2 ∧ operands 7 (-2) :=
  ⟨by decide, by decide, by decide, by decide, by decide, by decide, by decide, by decide, operands_met _ _,
    operands_met _ _, operands_met _ _, operands_met _ _, operands_met _ _⟩
theorem witness_DivFails : (0 : Word).toInt = 0 ∧ minWord.toInt = intMin ∧ (-1 : Word).toInt = -1 ∧
    operands 5 0 ∧ operands minWord (-1) := ⟨by decide, by decide, by decide, operands_met _ _, operands_met _ _⟩
theorem witness_Overflow : intMax < maxWord.toInt + (1 : Word).toInt ∧ minWord.toInt - (1 : Word).toInt < intMin ∧
    intMax < minWord.toInt * (-1 : Word).toInt ∧ maxWord.toInt = intMax ∧ minWord.toInt = intMin ∧
    operands maxWord 1 ∧ operands minWord 1 ∧ operands minWord (-1) :=
  ⟨by decide, by decide, by decide, by decide, by decide, operands_met _ _, operands_met _ _, operands_met _ _⟩
theorem witness_NegIncDec : (at3 (.int maxWord) [] []).acc = .int maxWord ∧ (minWord + 1).toInt = -maxWord.toInt ∧
    maxWord.toInt = (maxWord - 1).toInt + 1 ∧ minWord.toInt = (minWord + 1).toInt - 1 := by decide
theorem witness_Uncoercible : isInt (at3 .unset [] []).acc = false ∧ isInt (.name 2) = false ∧
    memRead (.int 10) (at3 .unset [(10, .int 1)] []) = some (.int 1, at3 .unset [(10, .int 1)] []) ∧
    memRead (.int 10) (at3 (.int 1) [(10, .name 2)] []) = some (.name 2, at3 (.int 1) [(10, .name 2)] []) := by decide
theorem witness_Lda : (resolve (.lit 1) sM = .ok (.int 1) ∧ Value.int 1 ≠ .int 0) ∧
    resolve (.sym 0) sM = .ok (.int 0) ∧ (sM.setInQ [.name 5]).inQ = .name 5 :: [] := by decide
theorem witness_Sta : resolve (.lit 2) (State.construct small) = .ok (.int 2) ∧
    memWrite (.int 2) (State.construct small).acc (State.construct small) =
      .ok ((State.construct small).setMem ⟨[], 3⟩) ∧
    resolve (.lit 3) (State.construct small) = .ok (.int 3) ∧
    memWrite (.int 3) (State.construct small).acc (State.construct small) = .error .addressOutOfRange := by decide
theorem witness_Br : resolve (.sym 2) sM = .ok (.int 5) ∧ resolve (.lit (-3)) sM = .ok (.int (-3)) := by decide
theorem witness_BrpBrz : (at3 (.int 1) [] []).acc = .int 1 ∧ 0 < (1 : Word).toInt ∧ (0 : Word).toInt = 0 ∧
    (-1 : Word).toInt < 0 := by decide
theorem witness_Bri : resolve (.lit 6) sM = .ok (.int 6) ∧ memRead (.int 6) sM = some (.name 2, sM) ∧
    resolveValue (.name 2) sM = .ok (.int 5) ∧ memRead (.int 7) sM = some (.unset, sM) ∧
    resolveValue .unset sM = .error .unresolvedAddress := by decide
theorem witness_Brs : (maxWord.toInt = (maxWord - 1).toInt + 1 ∧
      memWrite (.int (maxWord - 1)) sM.pc sM =
        .ok (sM.setMem ⟨[(5, .int 9), (6, .name 2), (9223372036854775806, .int 1)], 9223372036854775807⟩)) ∧
    maxWord.toInt = intMax ∧
    ((-1 : Word).toInt ≠ intMax ∧ memWrite (.int (-1)) sM.pc sM = .error .addressOutOfRange) := by decide
theorem witness_BrsNoInteger : resolve (.sym 2) unreachable = .ok (.name 3) ∧ isInt (.name 3) = false := by decide
theorem witness_Unresolvable : symLookup sM 3 = none ∧ (at3 (.int 1) [] []).acc = .int 1 ∧ 0 < (1 : Word).toInt ∧
    (at3 (.int 0) [] []).acc = .int 0 ∧ (0 : Word).toInt = 0 := by decide
theorem witness_DeviceWait : resolve (.sym 0) sM = .ok (.int 0) ∧ resolve (.lit 0) sM = .ok (.int 0) ∧ sM.inQ = [] := by
  decide

/-- `hlt` in the last cell that can be executed, and what comes next. -/
def atEnd : State := { at3 .unset [(9223372036854775806, .instr 0x10 .absent)] [] with
  pc := .int (maxWord - 1), mem := ⟨[(9223372036854775806, .instr 0x10 .absent)], 9223372036854775807⟩ }
theorem witness_StepRuns : atEnd.running = true ∧ atEnd.blocked = false ∧ atEnd.pc = .int (maxWord - 1) ∧
    maxWord - 1 ≠ 0 ∧ maxWord.toInt = (maxWord - 1).toInt + 1 ∧
    atEnd.mem.read (maxWord - 1).toInt = .instr 0x10 .absent ∧
    decodeCell 0x30100000000000000000 = .ok (.instr 0x10 .absent) ∧
    decode 0x30100000000000000000 = .ok (.hlt .absent) ∧
    nextWith (exec (.hlt .absent) { atEnd with
      ar := .int (maxWord - 1), ir := .instr 0x10 .absent, pc := .int maxWord }) (fun _ => true) = true := by decide
theorem witness_NonInstruction : (at3 .unset [] []).running = true ∧ (at3 .unset [] []).blocked = false ∧
    (at3 .unset [] []).pc = .int 3 ∧ (3 : Word) ≠ 0 ∧ (4 : Word).toInt = (3 : Word).toInt + 1 ∧
    (at3 .unset [] []).mem.read (3 : Word).toInt = .unset ∧
    (at3 .unset [(3, .instr 0x11 .absent)] []).mem.read (3 : Word).toInt = .instr 0x11 .absent ∧
    (0x11 : Nat) ≤ (0x11 : Opcode).toNat := by decide
theorem witness_IncrementPastTheRange : ((at3 .unset [] []).setPc (.int maxWord)).running = true ∧
    ((at3 .unset [] []).setPc (.int maxWord)).blocked = false ∧ maxWord.toInt = intMax := by decide
theorem witness_NoStep : (State.construct small).running = false ∧ sWait.running = true ∧ sWait.blocked = true ∧
    sWait.inQ = [] := by decide

/-- Does a next state come out? -/
def goesOn (r : Result) : Bool := nextWith r fun _ => true

theorem witness_OneRegisterFrame : goesOn (exec (.set (.lit 5)) (at3 .unset [] [])) = true ∧
    goesOn (exec (.neg .absent) (at3 .unset [] [])) = true ∧ goesOn (exec (.inc .absent) (at3 (.int 1) [] [])) = true ∧
    goesOn (exec (.dec .absent) (at3 (.int 1) [] [])) = true := by decide
theorem witness_TwoOperandFrame : goesOn (exec (.add (.lit 0)) (at3 (.int 1) [] [.int 7])) = true ∧
    goesOn (exec (.sub (.lit 0)) (at3 (.int 1) [] [])) = true ∧
    goesOn (exec (.mlt (.lit 10)) (at3 (.int 1) [(10, .int 2)] [])) = true ∧
    goesOn (exec (.div (.lit 10)) (at3 (.int 1) [(10, .int 2)] [])) = true := by decide
theorem witness_LoadAndBranchFrame : goesOn (exec (.lda (.lit 0)) (at3 .unset [] [.int 7])) = true ∧
    goesOn (exec (.br (.lit 9)) (at3 .unset [] [])) = true ∧ goesOn (exec (.brp (.lit 9)) (at3 (.int 1) [] [])) = true ∧
    goesOn (exec (.brz (.lit 9)) (at3 (.int 0) [] [])) = true ∧ goesOn (exec (.bri (.lit 0)) (at3 .unset [] [])) = true ∧
    goesOn (exec (.hlt .absent) (at3 .unset [] [])) = true := by decide
theorem witness_StoringFrame : goesOn (exec (.sta (.lit 20)) (at3 (.int 5) [] [])) = true ∧
    goesOn (exec (.brs (.lit 7)) (at3 .unset [] [])) = true ∧
    (goesOn (exec (.sta (.lit 0)) (at3 (.int 5) [] [])) = true ∧ resolve (.lit 0) (at3 (.int 5) [] []) = .ok (.int 0)) ∧
    (goesOn (exec (.sta .absent) (at3 (.int 5) [] [])) = true ∧
      resolve .absent (at3 (.int 5) [] []) = .error .unresolvedAddress) ∧
    (goesOn (exec (.sta (.sym 2)) unreachable) = true ∧ goesOn (exec (.brs (.sym 2)) unreachable) = true) := by decide

/-- A state with the invariants in which `brs` comes next. -/
theorem inv_at3 : (at3 .unset [(3, .instr 0x0F (.sym 2))] []).Inv :=
  ⟨by decide, by decide, by decide, by decide, by decide, by decide, by decide, by decide, by decide, by decide,
    by decide⟩
theorem inv_sWait : sWait.Inv :=
  ⟨by decide, by decide, by decide, by decide, by decide, by decide, by decide, by decide, by decide, by decide,
    by decide⟩

theorem witness_InvariantStep : ∃ s t, s.Inv ∧ step s = .next t :=
  (exists_of_nextWith (r := step (at3 .unset [(3, .instr 0x0F (.sym 2))] [])) (p := fun _ => true) (by decide)).elim
    fun t h => ⟨_, t, inv_at3, h.1⟩
theorem witness_InvariantTransaction : ∃ x s t, s.Inv ∧ transact x s = .next t :=
  ⟨.supply (.int 1), sWait, supplyInput (.int 1) sWait, inv_sWait, rfl⟩
theorem witness_Reachable : Reachable (State.construct small) := .construct small (by decide)
theorem witness_MemoryNeverShrinks : goesOn (step (at3 .unset [(3, .instr 0x0F (.sym 2))] [])) = true ∧
    goesOn (transact (.write 2 .unset) (State.construct small)) = true := by decide
theorem witness_Failing : ∃ t, exec (.sta (.lit (-1))) (at3 (.int 6) [] []) = .next t ∧
    t.fault = some .addressOutOfRange :=
  (exists_of_nextWith (p := fun t => decide (t.fault = some .addressOutOfRange)) (by decide)).imp fun _ h =>
    ⟨h.1, of_decide_eq_true h.2⟩
theorem witness_PcToZero : (at3 .unset [] [.int 0]).pc ≠ .int 0 ∧
    nextWith (exec (.hlt .absent) (at3 .unset [] [])) (pcIs 0) = true ∧
    nextWith (exec (.br (.sym 0)) (at3 .unset [] [])) (pcIs 0) = true ∧
    nextWith (exec (.bri (.lit 0)) (at3 .unset [] [.int 0])) (pcIs 0) = true ∧
    nextWith (exec (.inc .absent) (at3 .unset [] [])) (fun t => decide (t.pc = .int 0)) = true ∧
    resolve (.sym 1) (at3 .unset [] []) = .ok (.int 0) := by decide
theorem witness_BranchToZero : resolve (.sym 1) (at3 (.int 1) [] []) = .ok (.int 0) ∧
    (at3 (.int 1) [] []).acc = .int 1 ∧ 0 < (1 : Word).toInt ∧ (at3 (.int 0) [] []).acc = .int 0 ∧
    (0 : Word).toInt = 0 ∧ memRead (.int 0) (at3 .unset [] [.int 0]) = some (.int 0, at3 .unset [] []) ∧
    resolveValue (.int 0) (at3 .unset [] [.int 0]) = .ok (.int 0) := by decide

/-- After a run that failed. -/
def sFailed : State := { State.reset with pc := .int 0, running := false, fault := some .unknownMnemonic, ar := .int 1 }

theorem witness_FaultKept : sFailed.Inv ∧ sFailed.fault ≠ none ∧ step sFailed = .next sFailed :=
  ⟨⟨by decide, by decide, by decide, by decide, by decide, by decide, by decide, by decide, by decide, by decide,
    by decide⟩, by decide, rfl⟩
theorem witness_OneInput : goesOn (run1 0x31090000000000000000 (at3 .unset [] [.int 7, .int 8])) = true := by decide
theorem witness_InputUnseen : readsDevice (.add (.lit 10)) (at3 .unset [] [.int 7]) = false ∧
    readsDevice (.sta (.lit 0)) (at3 .unset [] [.int 7]) = false := by decide

/-- Where `sta 4` has an instruction record in ACC. -/
def sStore : State := at3 (.instr 0x01 (.lit 9)) [] []
/-- The same with PC at the cell to be written, as `sta 4` at address 3 leaves it. -/
def sStore4 : State := sStore.setPc (.int 4)

theorem witness_StoreThenLoad : (4 : Word) ≠ 0 ∧ resolve (.lit 4) sStore = .ok (.int 4) ∧
    memWrite (.int 4) sStore.acc sStore = .ok (sStore.setMem ⟨[(4, .instr 0x01 (.lit 9))], 12⟩) ∧
    nextWith (exec (.sta (.lit 4)) sStore) (fun t => decide (resolve (.lit 4) t = .ok (.int 4))) = true ∧
    nextWith (exec (.sta (.lit 4)) sStore) (fun t => goesOn (exec (.add (.lit 4)) t)) = true := by decide
theorem witness_CallAndReturn : resolve (.sym 2) (at3 .unset [] []) = .ok (.int 5) ∧ (5 : Word) ≠ 0 ∧
    (at3 .unset [] []).pc = .int 3 ∧ (6 : Word).toInt = (5 : Word).toInt + 1 ∧ (at3 .unset [] []).fault = none ∧
    nextWith (exec (.brs (.sym 2)) (at3 .unset [] [])) (fun t => decide (t.fault = none)) = true := by decide
theorem witness_StoreSeenByFetch : (4 : Word) ≠ 0 ∧ resolve (.lit 4) sStore4 = .ok (.int 4) ∧
    memWrite (.int 4) sStore4.acc sStore4 = .ok (sStore4.setMem ⟨[(4, .instr 0x01 (.lit 9))], 12⟩) ∧
    nextWith (exec (.sta (.lit 4)) sStore4) (fun t => decide (t.pc = .int 4)) = true := by decide
theorem witness_Waiting : (at3 .unset [(3, .instr 0x09 (.lit 0))] []).running = true ∧
    (at3 .unset [(3, .instr 0x09 (.lit 0))] []).blocked = false ∧
    (at3 .unset [(3, .instr 0x09 (.lit 0))] []).inQ = [] ∧
    nextWith (step (at3 .unset [(3, .instr 0x09 (.lit 0))] [])) (fun t => decide (t = sWait)) = true := by decide

end Sys2Proof.Tests
end

section
/-! PROOFS. The statements of 20_memory.md on `resolve` (R35), `MemRead` (R37) and the growth arm of `MemWrite` (R43). -/

namespace Sys2Proof.Machine

/-! ### `resolve` of the Values that spell a token -/

@[simp] theorem resolveValue_name (n : SymName) (s : State) : resolveValue (.name n) s = resolve (.sym n) s := rfl
@[simp] theorem resolveValue_int (z : Word) (s : State) : resolveValue (.int z) s = .ok (.int z) := rfl
@[simp] theorem resolveValue_unset (s : State) : resolveValue .unset s = .error .unresolvedAddress := rfl
@[simp] theorem resolveValue_instr (m : Opcode) (o : Operand) (s : State) :
    resolveValue (.instr m o) s = .error .unresolvedAddress := rfl

/-! ### The arms of `MemRead` -/

theorem devIn_of_cons {s : State} {d : DeviceValue} {q : List DeviceValue} (h : s.inQ = d :: q) :
    devIn s = some (d.toValue, s.setInQ q) := by simp [devIn, h]

/-- A read of an integer address other than the device: the cell, or `Unset` where none exists. -/
theorem memRead_int {z : Word} (s : State) (h : z ≠ 0) : memRead (.int z) s = some (s.mem.read z.toInt, s) :=
  memRead_of_ne s (int_ne_device h)

@[simp] theorem memRead_name (n : SymName) (s : State) :
    memRead (.name n) s = some ((symLookup s n).getD unlisted, s) := memRead_of_ne s nofun

@[simp] theorem memRead_unset (s : State) : memRead .unset s = some (.unset, s) := memRead_of_ne s nofun

@[simp] theorem memRead_instr (m : Opcode) (o : Operand) (s : State) :
    memRead (.instr m o) s = some (.unset, s) := memRead_of_ne s nofun

theorem ne_zero_of_toInt_neg {z : Word} (h : z.toInt < 0) : z ≠ 0 := by
  rintro rfl
  simp at h

/-- Outside the cells that exist memory reads `Unset` (the last arm of block R37). -/
theorem memRead_int_out_of_bounds {z : Word} {s : State} (h : z.toInt < 0 ∨ (z ≠ 0 ∧ s.mem.len ≤ z.toInt)) :
    memRead (.int z) s = some (.unset, s) := by
  rcases h with hneg | ⟨hz, hge⟩
  · rw [memRead_int s (ne_zero_of_toInt_neg hneg), Memory.read_of_neg _ hneg, unlisted]
  · rw [memRead_int s hz, Memory.read_of_ge _ hge, unlisted]

/-! ### The growth arm of `MemWrite` -/

theorem memWrite_grow {z : Word} (v : Value) {s : State} (hz : z ≠ 0) (hl : s.mem.len ≤ z.toInt)
    (hc : s.params.hasCell z.toInt.toNat = true) :
    memWrite (.int z) v s = .ok (s.setMem (s.mem.grow z.toInt.toNat v)) := by
  have hnonneg : ¬ z.toInt < 0 := by omega
  have hbeyond : ¬ z.toInt.toNat < s.mem.len := by omega
  simp [memWrite, int_ne_device hz, hnonneg, hbeyond, hc]

/-- The cells that growth makes on the way to `n`, and those past them, read as unset ones. -/
theorem Memory.read_grow_of_ge (m : Memory) {n k : Nat} (v : Value) (hk : m.len ≤ k) (hkn : k ≠ n)
    (hn : m.len ≤ n) : (m.grow n v).read k = unlisted := by
  rw [Memory.read_grow m v k hn, if_neg (by omega), Memory.read_of_ge m (by omega)]

/-- Growth leaves the older cells. -/
theorem Memory.read_grow_of_lt (m : Memory) {n k : Nat} (v : Value) (hk : k < m.len) (hn : m.len ≤ n) :
    (m.grow n v).read k = m.read k := by
  rw [Memory.read_grow m v k hn, if_neg (by omega)]

theorem Memory.read_grow_same (m : Memory) {n : Nat} (v : Value) (hn : m.len ≤ n) : (m.grow n v).read n = v := by
  rw [Memory.read_grow m v n hn, if_pos rfl]

/-! ### The statements -/

/-- Settles O11: the Values go by the tokens they spell, and a name by its look-up in SYM. -/
theorem resolveTurnsTokensIntoAddresses : Obligations.ResolveTurnsTokensIntoAddresses := by
  intro s
  refine ⟨fun n v h => ?bound, fun n h => ?unbound, fun z => ?integer, ?absent, ?unset, fun m o => ?record⟩
  case bound => simp [resolve_sym_of_bound h]
  case unbound => simp [resolve_sym_of_unbound h]
  case integer => simp
  case absent => exact resolve_absent s
  case unset => exact resolveValue_unset s
  case record => exact resolveValue_instr m o s

/-- Settles O12, arm by arm of block R37. -/
theorem memReadTakesTheFirstArmThatApplies : Obligations.MemReadTakesTheFirstArmThatApplies := by
  intro a s
  refine ⟨?wait, ?input, ?boundName, ?inBounds, ?outOfBounds, ?unboundName, ?unset, ?record⟩
  case wait =>
    rintro rfl hq
    exact memRead_none_iff.2 ⟨rfl, hq⟩
  case input =>
    rintro d q rfl hq
    exact (memRead_device s).trans (devIn_of_cons hq)
  case boundName =>
    rintro n v rfl h
    simp [h]
  case inBounds =>
    rintro z rfl hz h0 hlt
    rw [memRead_int s hz, Memory.read_of_lt _ h0 hlt]
  case outOfBounds =>
    rintro z rfl h
    exact memRead_int_out_of_bounds h
  case unboundName =>
    rintro n rfl h
    simp [h, unlisted]
  case unset =>
    rintro rfl
    exact memRead_unset s
  case record =>
    rintro m o rfl
    exact memRead_instr m o s

/-- Settles O14: the growth arm answers `Memory.grow`, whose reads are known; the first write after `Construct` is that
arm with MLEN 0. -/
theorem writeBeyondTheEndGrowsMemoryWithUnsetCells : Obligations.WriteBeyondTheEndGrowsMemoryWithUnsetCells := by
  constructor
  · intro n v s hz hl hc
    have hn : s.mem.len ≤ n.toInt.toNat := by omega
    refine ⟨s.mem.grow n.toInt.toNat v, memWrite_grow v hz hl hc, Memory.len_grow _ _ _, ?between, ?written, ?older⟩
    case between => exact fun k hk hkn => Memory.read_grow_of_ge _ v hk hkn.ne hn
    case written =>
      have hsame := Memory.read_grow_same s.mem v hn
      rwa [Int.toNat_of_nonneg (by omega)] at hsame
    case older => exact fun k hk => Memory.read_grow_of_lt _ v hk hn
  · intro p v hc
    have hlen : (State.construct p).mem.len = 0 := rfl
    refine ⟨(State.construct p).mem.grow 1 v, ?accepted, Memory.len_grow _ _ _, ?cellZero, ?cellOne⟩
    case accepted => exact memWrite_grow (z := 1) v (by decide) (by rw [hlen]; decide) hc
    case cellZero => exact Memory.read_grow_of_ge (k := 0) _ v (by rw [hlen]) (by decide) (by rw [hlen]; decide)
    case cellOne => exact Memory.read_grow_same (n := 1) _ v (by rw [hlen]; decide)

end Sys2Proof.Machine
end

section
/-! PROOFS. The statement of 40_cycle_and_dispatch.md on PC and 0 (R84): what each handler can do to PC, said once for
every instruction by `exec_pc_cases`, and what a branch that is taken does. -/

namespace Sys2Proof.Machine

section handlers
variable {s t : State}

/-! ### PC through a read and an accepted write -/

theorem memRead_keeps_pc {a v : Value} (h : memRead a s = some (v, t)) : t.pc = s.pc := by
  rcases memRead_frame h with rfl | ⟨-, d, q, -, rfl⟩ <;> rfl

/-- No write to a negative address is accepted. -/
theorem toInt_nonneg_of_memWrite_ok {z : Word} {v : Value} (h : memWrite (.int z) v s = .ok t) : 0 ≤ z.toInt := by
  rcases memWrite_cases h with ⟨hdev, -⟩ | ⟨n, hname, -⟩ | ⟨w, hw, -, hnonneg, -⟩ | ⟨w, hw, -, hnonneg, -⟩
  · cases hdev
    decide
  · cases hname
  · cases hw
    exact hnonneg
  · cases hw
    exact hnonneg

/-! ### PC through the handlers that are no control transfer: kept, or the handler failed -/

theorem twoOperand_pc {op : Int → Int → Except Cause Int} {o : Operand} (h : twoOperand op o s = .next t) :
    t.pc = s.pc ∨ ∃ c u, t = dispatchFailure c u := by
  rcases twoOperand_cases h with ⟨c, -, ht⟩ | ⟨a, -, -, rfl⟩ | ⟨a, v, s1, c, -, -, ht⟩ |
    ⟨a, s1, x, y, z, r, -, hread, -, -, -, rfl⟩
  · exact .inr ⟨c, s, ht⟩
  · exact .inl rfl
  · exact .inr ⟨c, s1.setB v, ht⟩
  · have hkept : s1.pc = s.pc := memRead_keeps_pc hread
    exact .inl hkept

theorem oneOperand_pc {op : Int → Int} (h : oneOperand op s = .next t) :
    t.pc = s.pc ∨ ∃ c u, t = dispatchFailure c u := by
  rcases oneOperand_cases h with ⟨c, ht⟩ | ⟨x, r, -, -, rfl⟩
  · exact .inr ⟨c, s, ht⟩
  · exact .inl rfl

theorem execSet_pc {o : Operand} (h : execSet o s = .next t) :
    t.pc = s.pc ∨ ∃ c u, t = dispatchFailure c u := by
  rcases execSet_cases h with ⟨c, ht⟩ | ⟨z, -, rfl⟩
  · exact .inr ⟨c, s, ht⟩
  · exact .inl rfl

theorem execLda_pc {o : Operand} (h : execLda o s = .next t) :
    t.pc = s.pc ∨ ∃ c u, t = dispatchFailure c u := by
  rcases execLda_cases h with ⟨c, -, ht⟩ | ⟨a, -, -, rfl⟩ | ⟨a, v, s1, -, hread, rfl⟩
  · exact .inr ⟨c, s, ht⟩
  · exact .inl rfl
  · have hkept : s1.pc = (s.setAr a).pc := memRead_keeps_pc hread
    exact .inl hkept

theorem execSta_pc {o : Operand} (h : execSta o s = .next t) :
    t.pc = s.pc ∨ ∃ c u, t = dispatchFailure c u := by
  rcases execSta_cases h with ⟨c, -, ht⟩ | ⟨a, c, -, -, ht⟩ | ⟨a, -, hwrite⟩
  · exact .inr ⟨c, s, ht⟩
  · exact .inr ⟨c, s.setAr a, ht⟩
  · exact .inl (memWrite_frame hwrite).1

/-! ### A branch that is taken -/

theorem jump_of_resolve {o : Operand} {a : Value} (h : resolve o s = .ok a) : jump o s = .next (s.setPc a) := by
  simp [jump, h]

theorem branchIf_of_test {test : Int → Bool} {x : Word} (o : Operand) (hacc : s.acc = .int x)
    (htest : test x.toInt = true) : branchIf test o s = jump o s := by
  simp [branchIf, hacc, htest]

/-- A read hands on the Symbol Table, so a Value read resolves as it did before the read. -/
theorem resolveValue_after_memRead {a v : Value} (h : memRead a s = some (v, t)) (w : Value) :
    resolveValue w t = resolveValue w s := by
  rcases memRead_frame h with rfl | ⟨-, d, q, -, rfl⟩
  · rfl
  · exact resolve_setInQ w.asToken s q

theorem execBri_of_resolve {o : Operand} {a v p : Value} (ha : resolve o s = .ok a)
    (hread : memRead a s = some (v, t)) (hp : resolveValue v s = .ok p) :
    execBri o s = .next ((t.setAr a).setPc p) := by
  have hreadAr : memRead a (s.setAr a) = some (v, t.setAr a) := by simp [memRead_setAr, hread]
  have htarget : resolveValue v (t.setAr a) = .ok p := by
    rw [resolveValue_after_memRead hreadAr, ← hp]
    exact resolve_setAr v.asToken s a
  simp [execBri, ha, hreadAr, htarget]

/-! ### PC through every instruction -/

theorem branchIf_pc {test : Int → Bool} {o : Operand} (h : branchIf test o s = .next t) :
    t.pc = s.pc ∨ (∃ c u, t = dispatchFailure c u) ∨ resolve o s = .ok t.pc := by
  rcases branchIf_cases h with ⟨c, ht⟩ | rfl | ⟨x, a, -, -, ha, rfl⟩
  · exact .inr (.inl ⟨c, s, ht⟩)
  · exact .inl rfl
  · exact .inr (.inr ha)

theorem jump_pc {o : Operand} (h : jump o s = .next t) :
    (∃ c u, t = dispatchFailure c u) ∨ resolve o s = .ok t.pc := by
  rcases jump_cases h with ⟨c, -, ht⟩ | ⟨a, ha, rfl⟩
  · exact .inl ⟨c, s, ht⟩
  · exact .inr ha

theorem execBri_pc {o : Operand} (h : execBri o s = .next t) :
    t.pc = s.pc ∨ (∃ c u, t = dispatchFailure c u) ∨
      ∃ a v s1, resolve o s = .ok a ∧ memRead a s = some (v, s1) ∧ resolveValue v s = .ok t.pc := by
  rcases execBri_cases h with ⟨c, -, ht⟩ | ⟨a, -, -, rfl⟩ | ⟨a, v, s1, c, -, -, ht⟩ | ⟨a, v, s1, p, ha, hread, hp, rfl⟩
  · exact .inr (.inl ⟨c, s, ht⟩)
  · exact .inl rfl
  · exact .inr (.inl ⟨c, s1, ht⟩)
  · have htarget : resolveValue v s = .ok p := by
      rw [← hp, resolveValue_after_memRead hread]
      exact (resolve_setAr v.asToken s a).symm
    obtain ⟨⟨w, s2⟩, hread2, heq⟩ := Option.map_eq_some_iff.1 ((memRead_setAr a a s).symm.trans hread)
    cases heq
    exact .inr (.inr ⟨a, w, s2, ha, hread2, htarget⟩)

/-- A `brs` that does not fail enters its subroutine above 0, since the cell it writes is at 0 or above. -/
theorem execBrs_pc {o : Operand} (h : execBrs o s = .next t) :
    (∃ c u, t = dispatchFailure c u) ∨ ∃ r, 0 < r.toInt ∧ t.pc = .int r := by
  rcases execBrs_cases h with ⟨c, ht⟩ | ⟨n, r, s1, -, hr, hwrite, rfl⟩
  · exact .inl ⟨c, s, ht⟩
  · have hnonneg := toInt_nonneg_of_memWrite_ok hwrite
    have hentry := narrow_eq_ok.1 hr
    exact .inr ⟨r, by omega, rfl⟩

/-- Everything an instruction can do to PC: keep it, fail, halt, branch to where its operand resolves, branch to where
the cell it read resolves, or enter a subroutine above 0. -/
theorem exec_pc_cases {i : Instr} (h : exec i s = .next t) :
    t.pc = s.pc ∨ (∃ c u, t = dispatchFailure c u) ∨ (∃ o, i = .hlt o) ∨
      (∃ o, i ∈ [Instr.br o, .brp o, .brz o] ∧ resolve o s = .ok t.pc) ∨
      (∃ o a v s1, i = .bri o ∧ resolve o s = .ok a ∧ memRead a s = some (v, s1) ∧ resolveValue v s = .ok t.pc) ∨
      (∃ r, 0 < r.toInt ∧ t.pc = .int r) := by
  cases i with
  | set o => exact (execSet_pc h).imp_right .inl
  | add o | sub o | mlt o | div o => exact (twoOperand_pc h).imp_right .inl
  | neg o | inc o | dec o => exact (oneOperand_pc h).imp_right .inl
  | lda o => exact (execLda_pc h).imp_right .inl
  | sta o => exact (execSta_pc h).imp_right .inl
  | br o => exact .inr ((jump_pc h).imp_right fun hp => .inr (.inl ⟨o, by simp, hp⟩))
  | brp o | brz o =>
    exact (branchIf_pc h).imp_right fun hk => hk.imp_right fun hp => .inr (.inl ⟨o, by simp, hp⟩)
  | bri o =>
    exact (execBri_pc h).imp_right fun hk => hk.imp_right fun ⟨a, v, s1, ha, hread, hp⟩ =>
      .inr (.inr (.inl ⟨o, a, v, s1, rfl, ha, hread, hp⟩))
  | brs o => exact .inr ((execBrs_pc h).imp_right fun hp => .inr (.inr (.inr hp)))
  | hlt o => exact .inr (.inr (.inl ⟨o, rfl⟩))

end handlers

/-- Settles O50: of all that an instruction can do to PC, keeping it and entering a subroutine cannot bring it to 0; and
a branch that is taken writes PC as `hlt` does. -/
theorem onlyHltFailureOrABranchToZeroSetsPcToZero : Obligations.OnlyHltFailureOrABranchToZeroSetsPcToZero := by
  refine ⟨?waysToZero, ?branchToZero, ?briToZero, ?hltEndsTheRun⟩
  case waysToZero =>
    intro i s t h hpc hzero
    rcases exec_pc_cases h with hkept | hfail | hhlt | ⟨o, hi, ho⟩ | ⟨o, a, v, s1, hi, ha, hread, hp⟩ | ⟨r, hr, hentry⟩
    · exact absurd (hkept.symm.trans hzero) hpc
    · exact .inr (.inl hfail)
    · exact .inl hhlt
    · exact .inr (.inr (.inl ⟨o, hi, hzero ▸ ho⟩))
    · exact .inr (.inr (.inr ⟨o, a, v, s1, hi, ha, hread, hzero ▸ hp⟩))
    · cases hentry.symm.trans hzero
      exact absurd hr (by decide)
  case branchToZero =>
    intro o o' s ho
    have hjump : jump o s = exec (.hlt o') s := jump_of_resolve ho
    refine ⟨hjump, fun x hacc hx => ?_, fun x hacc hx => ?_⟩
    · exact (branchIf_of_test o hacc (by simpa [isPositive] using hx)).trans hjump
    · exact (branchIf_of_test o hacc (by simpa [isZero] using hx)).trans hjump
  case briToZero => exact fun o o' s s1 a v ha hread hp => execBri_of_resolve ha hread hp
  case hltEndsTheRun => exact fun o s => ⟨s.setPc (.int 0), rfl, rfl, if_pos rfl⟩

end Sys2Proof.Machine
end

section
/-! PROOFS. The statement of 41_set_and_arithmetic.md on the floor quotient of `div` (R93): the quotient is in range but
for `INT_MIN` by -1, it is the truncated quotient corrected, and a two-operand handler whose result is in range writes
it. -/

namespace Sys2Proof.Machine

/-! ### The floor quotient of integers -/

theorem floorDivide_of_ne_zero (x : Int) {y : Int} (hy : y ≠ 0) : floorDivide x y = .ok (x.fdiv y) := if_neg hy

/-- Rounding down and rounding toward zero differ by one exactly where the signs differ and the remainder is not 0. The
signs are told apart by `0 ≤`: of a dividend 0 every divisor is a factor. -/
theorem fdiv_eq_tdiv_sub_one (x : Int) {y : Int} (hy : y ≠ 0) :
    x.fdiv y = if (0 ≤ x ↔ 0 ≤ y) ∨ y ∣ x then x.tdiv y else x.tdiv y - 1 := by
  rw [Int.fdiv_eq_tdiv]
  by_cases hdvd : y ∣ x
  · simp [hdvd]
  by_cases hx : 0 ≤ x <;> rcases lt_or_gt_of_ne hy with hneg | hpos
  · simp [hdvd, hx, not_le.2 hneg]
  · simp [hdvd, hx, hpos.le]
  · simp [hdvd, hx, not_le.2 hneg, Int.sign_eq_neg_one_of_neg hneg]
  · simp [hdvd, hx, hpos.le, Int.sign_eq_one_of_pos hpos]

/-- The floor quotient of words is in range, `INT_MIN` by -1 excepted: a positive divisor does not move the dividend
away from 0, -1 negates it, and any other negative divisor leaves about half of it. -/
theorem floorQuotient_inRange {x y : Word} {q m : Int} (hx : x.toInt = q * y.toInt + m)
    (hm : (0 ≤ m ∧ m < y.toInt) ∨ (y.toInt < m ∧ m ≤ 0)) (hxy : ¬ (x.toInt = intMin ∧ y.toInt = -1)) :
    intMin ≤ q ∧ q ≤ intMax := by
  have hrange := word_inRange x
  generalize x.toInt = x, y.toInt = y at *
  simp only [intMin, intMax] at *
  rcases hm with hm | hm
  · constructor <;> nlinarith
  · obtain rfl | hy : y = -1 ∨ y ≤ -2 := by omega
    · omega
    · constructor <;> nlinarith

/-- Every integer in range is the integer of a word. -/
theorem exists_toInt_eq_of_inRange {z : Int} (h : intMin ≤ z ∧ z ≤ intMax) : ∃ r : Word, r.toInt = z := by
  cases hz : narrow z with
  | ok r => exact ⟨r, narrow_eq_ok.1 hz⟩
  | error c =>
    have hout := (narrow_eq_error.1 hz).2
    omega

/-! ### A two-operand handler that does not fail -/

theorem memRead_keeps_acc {a v : Value} {s t : State} (h : memRead a s = some (v, t)) : t.acc = s.acc := by
  rcases memRead_frame h with rfl | ⟨-, d, q, -, rfl⟩ <;> rfl

/-- The success path of `add`, `sub`, `mlt` and `div`: a result in range is written to ACC, the operand read to B. -/
theorem twoOperand_of_narrow {op : Int → Int → Except Cause Int} {o : Operand} {s s1 : State} {a : Value}
    {x y r : Word} {z : Int} (ha : resolve o s = .ok a) (hread : memRead a s = some (.int y, s1)) (hacc : s.acc = .int x)
    (hop : op x.toInt y.toInt = .ok z) (hr : narrow z = .ok r) :
    twoOperand op o s = .next { s1 with b := .int y, acc := .int r } := by
  have hacc1 : s1.acc = .int x := (memRead_keeps_acc hread).trans hacc
  simp only [twoOperand, ha, hread, hacc1, hop, hr, orRaise_ok, orWait_some, toInt_int]
  rfl

/-! ### The statement -/

/-- Settles O20: the quotient of the one decomposition is in range, so a word holds it and `div` writes that word;
`floorDivide_eq` makes it unique, and as `Int.fdiv` it is the corrected truncated quotient. -/
theorem divWritesTheFloorQuotient : Obligations.DivWritesTheFloorQuotient := by
  intro o s s1 a x y ha hread hacc hy hxy
  obtain ⟨q, m, hq, hx, hm⟩ := exists_floorDivide x.toInt hy
  obtain ⟨r, rfl⟩ : ∃ r : Word, r.toInt = q :=
    exists_toInt_eq_of_inRange (floorQuotient_inRange hx hm hxy)
  refine ⟨r, ?written, ⟨m, hx, hm⟩, ?unique, ?truncated⟩
  case written => exact twoOperand_of_narrow ha hread hacc hq (narrow_eq_ok.2 rfl)
  case unique => exact fun q' m' hx' hm' => Except.ok.inj ((floorDivide_eq hx' hm').symm.trans hq)
  case truncated =>
    have hfloor : r.toInt = x.toInt.fdiv y.toInt := Except.ok.inj (hq.symm.trans (floorDivide_of_ne_zero _ hy))
    exact hfloor.trans (fdiv_eq_tdiv_sub_one _ hy)

end Sys2Proof.Machine
end

section
/-! PROOFS. The statement of 70_reset_and_hazards.md on `Unset` (R142): what `lda` and `sta` do when their read or write
goes through, for every Value, and what Execute does with a Value that is no instruction. -/

namespace Sys2Proof.Machine

section copies
variable {o : Operand} {s t : State} {a v : Value}

/-- The success path of `lda`: the Value read, whatever its kind, becomes ACC. -/
theorem execLda_of_memRead (ha : resolve o s = .ok a) (hread : memRead a s = some (v, t)) :
    execLda o s = .next ((t.setAr a).setAcc v) := by
  simp [execLda, ha, memRead_setAr, hread]

/-- The success path of `sta`: ACC, whatever its kind, is the Value written. -/
theorem execSta_of_memWrite (ha : resolve o s = .ok a) (hwrite : memWrite a s.acc s = .ok t) :
    execSta o s = .next (t.setAr a) := by
  simp [execSta, ha, memWrite_setAr_ok a hwrite]

end copies

@[simp] theorem memWrite_device (v : Value) (s : State) : memWrite (.int deviceAddr) v s = .ok (devOut v s) := if_pos rfl

/-- A cell other than the device reads as what an accepted write has just put there. -/
theorem memPeek_after_memWrite {z : Word} {v : Value} {s t : State} (hz : z ≠ 0)
    (h : memWrite (.int z) v s = .ok t) : memPeek (.int z) t = v :=
  (memWrite_int_read hz h z.toInt).trans (if_pos rfl)

/-- A Value without a handler ends the Execute phase in `UnknownMnemonic` (R80, R115). -/
theorem execute_of_decodeValue_error {s : State} {e : DecodeError} (h : decodeValue s.ir = .error e) :
    execute s = .next (dispatchFailure .unknownMnemonic s) := by
  simp [execute, h]

/-- Settles O17: `lda` and `sta` copy any Value, so `Unset` too; to `toInt`, `resolve` and the decoder it is no integer,
no token and no instruction. -/
theorem unsetIsCopiedButNeverUsedAsANumber : Obligations.UnsetIsCopiedButNeverUsedAsANumber := by
  refine ⟨?runStart, ?toIntFails, resolveValue_unset, ?decoderRejects, ?ldaCopies, ?staStores, ?staEmits⟩
  case runStart => simp
  case toIntFails => exact toInt_of_not_int nofun
  case decoderRejects =>
    intro s hir
    have hnone : decodeValue s.ir = .error .notAnInstruction := by rw [hir, decodeValue]
    exact execute_of_decodeValue_error hnone
  case ldaCopies =>
    intro o s a ha hdev hunset
    have hread : memRead a s = some (.unset, s) := hunset ▸ memRead_of_ne s hdev
    exact execLda_of_memRead ha hread
  case staStores =>
    intro o s t z ha hz hacc hwrite
    exact ⟨execSta_of_memWrite ha (hacc ▸ hwrite), memPeek_after_memWrite hz hwrite⟩
  case staEmits =>
    intro o s ha hacc
    have hemit : memWrite (.int 0) s.acc s = .ok (devOut .unset s) := hacc ▸ memWrite_device s.acc s
    exact execSta_of_memWrite ha hemit

end Sys2Proof.Machine
end

section
/-! PROOFS. The statements of 30_encoding.md on words (R56 to R60) and on the opcode table (R62 to R65): the legal words
are exactly the words of the Values, and the words of instructions exactly those that decode to them. -/

namespace Sys2Proof

/-! ### Words and Values -/

theorem decodeCell_encodeCell (v : Value) : decodeCell (encodeCell v) = .ok v := by
  cases v with
  | unset => rfl
  | int z => simp [encodeCell, decodeCell]
  | name s => simp [encodeCell, decodeCell]
  | instr m o => simp [encodeCell, decodeCell, decodeOperand_encode]

/-- What the fields of a legal word say about its Value. -/
theorem decodeCell_ok {w : CellWord} {v : Value} (h : decodeCell w = .ok v) :
    (∃ o, tagOf w = 3 ∧ decodeOperand (opkOf w) (opdOf w) = .ok o ∧ v = .instr (opcOf w) o) ∨
      (opkOf w = 0 ∧ opcOf w = 0 ∧
        ((tagOf w = 1 ∧ v = .int (opdOf w)) ∨ (tagOf w = 2 ∧ v = .name (opdOf w)) ∨
          (tagOf w = 0 ∧ opdOf w = 0 ∧ v = .unset))) := by
  unfold decodeCell at h
  split at h
  next h3 =>
    split at h
    next o ho => exact .inl ⟨o, h3, ho, (Except.ok.inj h).symm⟩
    next => simp at h
  next h3 =>
    split_ifs at h with hbig hk hc h1 h2 hd
    · exact .inr ⟨not_not.1 hk, not_not.1 hc, .inl ⟨h1, (Except.ok.inj h).symm⟩⟩
    · exact .inr ⟨not_not.1 hk, not_not.1 hc, .inr (.inl ⟨h2, (Except.ok.inj h).symm⟩)⟩
    · have h0 : tagOf w = 0 := by bv_omega
      exact .inr ⟨not_not.1 hk, not_not.1 hc, .inr (.inr ⟨h0, not_not.1 hd, (Except.ok.inj h).symm⟩)⟩

/-- The word of the Value of a legal word is that word: its four fields are. -/
theorem encodeCell_of_decodeCell {w : CellWord} {v : Value} (h : decodeCell w = .ok v) : encodeCell v = w := by
  have hfields := cellOfFields_fields w
  rcases decodeCell_ok h with ⟨o, h3, ho, rfl⟩ | ⟨hk, hc, ⟨h1, rfl⟩ | ⟨h2, rfl⟩ | ⟨h0, hd, rfl⟩⟩
  · obtain ⟨hkind, hpayload⟩ := decodeOperand_ok ho
    rwa [h3, ← hkind, ← hpayload] at hfields
  · rwa [h1, hk, hc] at hfields
  · rwa [h2, hk, hc] at hfields
  · rwa [h0, hk, hc, hd] at hfields

theorem decodeCell_eq_ok {w : CellWord} {v : Value} : decodeCell w = .ok v ↔ w = encodeCell v :=
  ⟨fun h => (encodeCell_of_decodeCell h).symm, fun h => h ▸ decodeCell_encodeCell v⟩

/-- Settles O3, in both directions field by field. -/
theorem legalWordsAndValuesAreInBijection : Obligations.LegalWordsAndValuesAreInBijection :=
  ⟨decodeCell_encodeCell, fun _ _ => encodeCell_of_decodeCell⟩

/-! ### The legal words -/

/-- Operand assembly rejects nothing but an operand kind above 2 and a payload where there is no operand (R56, R60). -/
theorem exists_decodeOperand_ok {k : BitVec 4} {d : BitVec 64} (hk : k.toNat ≤ 2) (hd : k = 0 → d = 0) :
    ∃ o, decodeOperand k d = .ok o := by
  obtain rfl | rfl | rfl : k = 0 ∨ k = 1 ∨ k = 2 := by bv_omega
  · exact ⟨.absent, by simp [decodeOperand, hd rfl]⟩
  · exact ⟨.lit d, by simp [decodeOperand]⟩
  · exact ⟨.sym d, by simp [decodeOperand]⟩

/-- Settles O4: the word of a Value has the layout, variant by variant; and a word of the layout has the Value its tag
says. -/
theorem legalWordsAreExactlyThoseOfTheLayout : Obligations.LegalWordsAreExactlyThoseOfTheLayout := by
  intro w
  constructor
  · rintro ⟨v, h⟩
    obtain rfl := decodeCell_eq_ok.1 h
    cases v with
    | unset | int | name => simp [encodeCell]
    | instr m o => cases o <;> simp [encodeCell, operandKind, operandPayload]
  · rintro ⟨htag, hzero, hkind, hpayload⟩
    obtain h3 | h0 | h1 | h2 : tagOf w = 3 ∨ tagOf w = 0 ∨ tagOf w = 1 ∨ tagOf w = 2 := by bv_omega
    · obtain ⟨o, ho⟩ := exists_decodeOperand_ok (hkind h3) fun hk => hpayload (.inr ⟨h3, hk⟩)
      exact ⟨.instr (opcOf w) o, by simp [decodeCell, h3, ho]⟩
    · obtain ⟨hk, hc⟩ := hzero (by simp [h0])
      exact ⟨.unset, by simp [decodeCell, h0, hk, hc, hpayload (.inl h0)]⟩
    · obtain ⟨hk, hc⟩ := hzero (by simp [h1])
      exact ⟨.int (opdOf w), by simp [decodeCell, h1, hk, hc]⟩
    · obtain ⟨hk, hc⟩ := hzero (by simp [h2])
      exact ⟨.name (opdOf w), by simp [decodeCell, h2, hk, hc]⟩

/-! ### Instructions and their records -/

theorem decodeValue_record (i : Instr) : decodeValue i.record = .ok i := by
  cases i with
  | set o => exact Laws.Record.set o
  | add o => exact Laws.Record.add o
  | sub o => exact Laws.Record.sub o
  | mlt o => exact Laws.Record.mlt o
  | div o => exact Laws.Record.div o
  | neg o => exact Laws.Record.neg o
  | inc o => exact Laws.Record.inc o
  | dec o => exact Laws.Record.dec o
  | lda o => exact Laws.Record.lda o
  | sta o => exact Laws.Record.sta o
  | br o => exact Laws.Record.br o
  | brp o => exact Laws.Record.brp o
  | brz o => exact Laws.Record.brz o
  | bri o => exact Laws.Record.bri o
  | brs o => exact Laws.Record.brs o
  | hlt o => exact Laws.Record.hlt o

/-- The opcodes with a handler are 0x01 to 0x10, and each handler makes instructions of that opcode (R62). -/
theorem handlerOf_cases (m : Opcode) :
    (handlerOf m = none ∧ (m = 0x00 ∨ 0x11 ≤ m.toNat)) ∨
      (¬ (m = 0x00 ∨ 0x11 ≤ m.toNat) ∧ ∃ h, handlerOf m = some h ∧ ∀ o, (h o).opcode = m ∧ (h o).operand = o) := by
  unfold handlerOf
  split
  case h_17 =>
    have hm : m.toNat = 0 ∨ 0x11 ≤ m.toNat := by grind
    exact .inl ⟨rfl, hm.imp_left fun h => BitVec.eq_of_toNat_eq h⟩
  all_goals
    rename_i hm
    exact .inr ⟨by bv_omega, _, rfl, fun o => ⟨BitVec.eq_of_toNat_eq hm.symm, rfl⟩⟩

/-- A Value decodes to an instruction exactly if it is the record of that instruction. -/
theorem decodeValue_eq_ok {v : Value} {i : Instr} : decodeValue v = .ok i ↔ v = i.record := by
  refine ⟨fun hi => ?_, fun hi => hi ▸ decodeValue_record i⟩
  cases v with
  | unset | int | name => simp [decodeValue] at hi
  | instr m o =>
    rcases handlerOf_cases m with ⟨hnone, -⟩ | ⟨-, h, hh, hrecord⟩
    · simp [decodeValue, hnone] at hi
    · obtain rfl : h o = i := by simpa [decodeValue, hh] using hi
      rw [Instr.record, (hrecord o).1, (hrecord o).2]

/-- A record decodes exactly if its opcode has a handler. -/
theorem exists_decodeValue_instr {m : Opcode} {o : Operand} :
    (∃ i, decodeValue (.instr m o) = .ok i) ↔ ¬ (m = 0x00 ∨ 0x11 ≤ m.toNat) := by
  rcases handlerOf_cases m with ⟨hnone, hm⟩ | ⟨hm, h, hh, -⟩
  · exact iff_of_false (by simp [decodeValue, hnone]) (not_not.2 hm)
  · exact iff_of_true ⟨h o, by simp [decodeValue, hh]⟩ hm

theorem decode_of_decodeCell {w : CellWord} {v : Value} (h : decodeCell w = .ok v) : decode w = decodeValue v := by
  simp [decode, h]

theorem decode_eq_ok {w : CellWord} {i : Instr} : decode w = .ok i ↔ w = encode i := by
  constructor
  · intro h
    cases hv : decodeCell w with
    | error e => simp [decode, hv] at h
    | ok v =>
      rw [decode_of_decodeCell hv, decodeValue_eq_ok] at h
      exact decodeCell_eq_ok.1 (h ▸ hv)
  · rintro rfl
    exact (decode_of_decodeCell (decodeCell_encodeCell i.record)).trans (decodeValue_record i)

/-- Settles O2: the word of an instruction is the word of its record, and its record decodes to it. -/
theorem decodeOfEncodeIsTheInstruction : Obligations.DecodeOfEncodeIsTheInstruction :=
  fun _ => decode_eq_ok.2 rfl

/-- Settles O1: the words are written out, and the decoder runs on them. -/
theorem wordsOfTheSpecDecodeAsWritten : Obligations.WordsOfTheSpecDecodeAsWritten := by
  unfold Obligations.WordsOfTheSpecDecodeAsWritten
  decide

/-! ### The opcode table -/

/-- The mnemonic is a key of the table. -/
theorem opcodeTable_mnemonic_injective :
    ∀ row ∈ opcodeTable, ∀ row' ∈ opcodeTable, row.mnemonic = row'.mnemonic → row = row' := by decide

/-- The opcode field of the pattern is a key of the table. -/
theorem opcodeTable_opcode_injective :
    ∀ row ∈ opcodeTable, ∀ row' ∈ opcodeTable, opcOf row.pattern = opcOf row'.pattern → row = row' := by decide

theorem exists_opcodeTable_row (i : Instr) :
    ∃ row ∈ opcodeTable, row.mnemonic = i.mnemonic ∧ opcOf row.pattern = i.opcode := by
  cases i <;> simp [opcodeTable, Instr.mnemonic, Instr.opcode, opcOf]

/-- Both keys of a row select the same instructions. -/
theorem mnemonic_eq_iff_opcode_eq {row : OpcodeRow} (h : row ∈ opcodeTable) (i : Instr) :
    i.mnemonic = row.mnemonic ↔ i.opcode = opcOf row.pattern := by
  obtain ⟨row', h', hmnemonic, hopcode⟩ := exists_opcodeTable_row i
  constructor
  · intro hi
    rw [← hopcode, opcodeTable_mnemonic_injective row' h' row h (hmnemonic.trans hi)]
  · intro hi
    rw [← hmnemonic, opcodeTable_opcode_injective row' h' row h (hopcode.trans hi)]

/-- Every row tests TAG and OPC only, for TAG 3 and an opcode that has a handler (R65). -/
theorem opcodeTable_row : ∀ row ∈ opcodeTable,
    row.mask = opcodeMask ∧ row.pattern = cellOfFields 3 0 (opcOf row.pattern) 0 ∧
      ¬ (opcOf row.pattern = 0x00 ∨ 0x11 ≤ (opcOf row.pattern).toNat) := by decide

/-- The mask keeps TAG and OPC (R65). -/
theorem and_opcodeMask (w : CellWord) : w &&& opcodeMask = cellOfFields (tagOf w) 0 (opcOf w) 0 := by
  have hmask : opcodeMask = cellOfFields (BitVec.allOnes 4) 0 (BitVec.allOnes 8) 0 := by decide
  apply BitVec.eq_of_getLsbD_eq
  intro i hi
  rw [BitVec.getLsbD_and, hmask, getLsbD_cellOfFields, getLsbD_cellOfFields]
  simp only [tagOf, opcOf, BitVec.getLsbD_extractLsb', BitVec.getLsbD_allOnes]
  split_ifs
  all_goals grind

theorem and_mask_eq_pattern {row : OpcodeRow} (h : row ∈ opcodeTable) (w : CellWord) :
    w &&& row.mask = row.pattern ↔ tagOf w = 3 ∧ opcOf w = opcOf row.pattern := by
  obtain ⟨hmask, hpattern, -⟩ := opcodeTable_row row h
  rw [hmask, and_opcodeMask]
  constructor
  · intro hw
    have hfields := hw.trans hpattern
    exact ⟨by simpa using congrArg tagOf hfields, by simpa using congrArg opcOf hfields⟩
  · rintro ⟨htag, hopc⟩
    rw [htag, hopc, ← hpattern]

/-- Settles O5: the mask leaves TAG and OPC, and a legal word with TAG 3 and an opcode that has a handler is the word of
an instruction with that opcode. -/
theorem tableRowSelectsExactlyItsInstruction : Obligations.TableRowSelectsExactlyItsInstruction := by
  intro w v hv row hrow
  rw [and_mask_eq_pattern hrow]
  constructor
  · rintro ⟨i, hi, hmnemonic⟩
    obtain rfl := decode_eq_ok.1 hi
    refine ⟨by simp [encode, Instr.record, encodeCell], ?_⟩
    rw [← (mnemonic_eq_iff_opcode_eq hrow i).1 hmnemonic]
    simp [encode, Instr.record, encodeCell]
  · rintro ⟨htag, hopc⟩
    rcases decodeCell_ok hv with ⟨o, -, -, rfl⟩ | ⟨-, -, ⟨h1, -⟩ | ⟨h2, -⟩ | ⟨h0, -⟩⟩
    · have hhandler := (opcodeTable_row row hrow).2.2
      obtain ⟨i, hi⟩ := exists_decodeValue_instr (o := o).2 (hopc ▸ hhandler)
      refine ⟨i, (decode_of_decodeCell hv).trans hi, (mnemonic_eq_iff_opcode_eq hrow i).2 ?_⟩
      rw [← hopc, (Value.instr.inj (decodeValue_eq_ok.1 hi)).1]
    · exact absurd (htag.symm.trans h1) (by decide)
    · exact absurd (htag.symm.trans h2) (by decide)
    · exact absurd (htag.symm.trans h0) (by decide)

end Sys2Proof
end

section
/-! PROOFS. What an instruction can do, said once for all sixteen by the columns of the table of 10_state.md section 2:
`exec_ran`. The frames of 41_set_and_arithmetic.md to 43_control_transfer.md and the rule on failing instructions
(60_exceptions.md section 3) are read off it. -/

namespace Sys2Proof.Machine

/-! ### The columns of the table -/

/-- The AR column. -/
def writesAr : Instr → Bool
  | .lda _ | .sta _ | .bri _ => true
  | _ => false

/-- The ACC column. -/
def writesAcc : Instr → Bool
  | .set _ | .add _ | .sub _ | .mlt _ | .div _ | .neg _ | .inc _ | .dec _ | .lda _ => true
  | _ => false

/-- The B column. -/
def writesB : Instr → Bool
  | .add _ | .sub _ | .mlt _ | .div _ => true
  | _ => false

/-- The PC column. -/
def writesPc : Instr → Bool
  | .br _ | .brp _ | .brz _ | .bri _ | .brs _ | .hlt _ => true
  | _ => false

/-- The writes in the memory column. -/
def stores : Instr → Bool
  | .sta _ | .brs _ => true
  | _ => false

theorem resolve_of_readsDevice {i : Instr} {s : State} (h : readsDevice i s = true) :
    resolve i.operand s = .ok (.int deviceAddr) := by
  cases i <;> simp_all [readsDevice, Instr.operand]

/-! ### What an instruction can do -/

/-- The values `a`, `b` and `q` that AR, B and IN_Q can have while `i` runs from `s`. -/
structure Touches (i : Instr) (s : State) (a b : Value) (q : List DeviceValue) : Prop where
  ar : a = s.ar ∨ (writesAr i = true ∧ resolve i.operand s = .ok a)
  b : b = s.b ∨ writesB i = true
  inQ : q = s.inQ ∨ (readsDevice i s = true ∧ ∃ d, s.inQ = d :: q)

/-- The next states that `i` can answer from `s`: it fails, it waits for input, it ends without a store or it ends with
one. -/
inductive Ran (i : Instr) (s : State) : State → Prop
  | fail (c : Cause) (a b : Value) (q : List DeviceValue) (h : Touches i s a b q) :
      Ran i s (dispatchFailure c (((s.setAr a).setB b).setInQ q))
  | wait (a : Value) (ha : a = s.ar ∨ (writesAr i = true ∧ resolve i.operand s = .ok a))
      (hdev : readsDevice i s = true) (hq : s.inQ = []) : Ran i s ((s.setAr a).setBlocked true)
  | finish (a b : Value) (q : List DeviceValue) (x p : Value) (h : Touches i s a b q)
      (hx : x = s.acc ∨ writesAcc i = true) (hp : p = s.pc ∨ writesPc i = true) :
      Ran i s (((((s.setAr a).setB b).setInQ q).setAcc x).setPc p)
  | store (a x p v : Value) {w : State} (hstores : stores i = true) (ha : resolve i.operand s = .ok a)
      (hw : memWrite a v s = .ok w) (hx : x = s.ar ∧ isInt a = true ∨ x = a ∧ writesAr i = true)
      (hp : p = s.pc ∨ writesPc i = true) : Ran i s ((w.setAr x).setPc p)

section handlers
variable {i : Instr} {o : Operand} {s t : State}

theorem Touches.refl (i : Instr) (s : State) : Touches i s s.ar s.b s.inQ := ⟨.inl rfl, .inl rfl, .inl rfl⟩

/-- A handler that fails before it has done anything. -/
theorem Ran.fail_at_once (i : Instr) (s : State) (c : Cause) : Ran i s (dispatchFailure c s) :=
  .fail c s.ar s.b s.inQ (.refl i s)

/-- A read that completes takes one input at most, from the device only. -/
theorem memRead_eq_setInQ {a v : Value} (h : memRead a s = some (v, t)) :
    ∃ q, t = s.setInQ q ∧ (q = s.inQ ∨ (a = .int deviceAddr ∧ ∃ d, s.inQ = d :: q)) := by
  rcases memRead_frame h with rfl | ⟨ha, d, q, hq, rfl⟩
  · exact ⟨t.inQ, rfl, .inl rfl⟩
  · exact ⟨q, rfl, .inr ⟨ha, d, hq⟩⟩

theorem memWrite_setAr (a v x : Value) (s : State) :
    memWrite a v (s.setAr x) = (memWrite a v s).map fun t => t.setAr x := by
  cases h : memWrite a v s with
  | ok t => exact memWrite_setAr_ok x h
  | error c => exact memWrite_setAr_error x h

theorem ran_twoOperand {op : Int → Int → Except Cause Int} (hacc : writesAcc i = true) (hb : writesB i = true)
    (hdev : resolve o s = .ok (.int deviceAddr) → readsDevice i s = true) (h : twoOperand op o s = .next t) :
    Ran i s t := by
  rcases twoOperand_cases h with ⟨c, -, rfl⟩ | ⟨a, ha, hnone, rfl⟩ | ⟨a, v, s1, c, ha, hread, rfl⟩ |
    ⟨a, s1, x, y, z, r, ha, hread, -, -, -, rfl⟩
  · exact .fail_at_once i s c
  · obtain ⟨rfl, hq⟩ := memRead_none_iff.1 hnone
    exact .wait s.ar (.inl rfl) (hdev ha) hq
  · obtain ⟨q, rfl, hq⟩ := memRead_eq_setInQ hread
    exact .fail c s.ar v q ⟨.inl rfl, .inr hb, hq.imp_right fun ⟨had, hd⟩ => ⟨hdev (had ▸ ha), hd⟩⟩
  · obtain ⟨q, rfl, hq⟩ := memRead_eq_setInQ hread
    exact .finish s.ar (.int y) q (.int r) s.pc
      ⟨.inl rfl, .inr hb, hq.imp_right fun ⟨had, hd⟩ => ⟨hdev (had ▸ ha), hd⟩⟩ (.inr hacc) (.inl rfl)

/-- An instruction that writes ACC and nothing else. -/
theorem Ran.finish_acc (hacc : writesAcc i = true) (x : Value) : Ran i s (s.setAcc x) :=
  .finish s.ar s.b s.inQ x s.pc (.refl i s) (.inr hacc) (.inl rfl)

/-- An instruction that writes PC and nothing else. -/
theorem Ran.finish_pc (hpc : writesPc i = true) (p : Value) : Ran i s (s.setPc p) :=
  .finish s.ar s.b s.inQ s.acc p (.refl i s) (.inl rfl) (.inr hpc)

theorem ran_oneOperand {op : Int → Int} (hacc : writesAcc i = true) (h : oneOperand op s = .next t) : Ran i s t := by
  rcases oneOperand_cases h with ⟨c, rfl⟩ | ⟨x, r, -, -, rfl⟩
  · exact .fail_at_once i s c
  · exact .finish_acc hacc (.int r)

theorem ran_execSet (h : execSet o s = .next t) : Ran (.set o) s t := by
  rcases execSet_cases h with ⟨c, rfl⟩ | ⟨z, -, rfl⟩
  · exact .fail_at_once _ s c
  · exact .finish_acc rfl (.int z)

theorem ran_jump (hpc : writesPc i = true) (h : jump o s = .next t) : Ran i s t := by
  rcases jump_cases h with ⟨c, -, rfl⟩ | ⟨a, -, rfl⟩
  · exact .fail_at_once i s c
  · exact .finish_pc hpc a

theorem ran_branchIf {test : Int → Bool} (hpc : writesPc i = true) (h : branchIf test o s = .next t) : Ran i s t := by
  rcases branchIf_cases h with ⟨c, rfl⟩ | rfl | ⟨x, a, -, -, -, rfl⟩
  · exact .fail_at_once i s c
  · exact .finish_pc hpc t.pc
  · exact .finish_pc hpc a

theorem ran_execLda (h : execLda o s = .next t) : Ran (.lda o) s t := by
  rcases execLda_cases h with ⟨c, -, rfl⟩ | ⟨a, ha, hnone, rfl⟩ | ⟨a, v, s1, ha, hread, rfl⟩
  · exact .fail_at_once _ s c
  · obtain ⟨rfl, hq⟩ := memRead_none_iff.1 hnone
    exact .wait _ (.inr ⟨rfl, ha⟩) (decide_eq_true ha) hq
  · obtain ⟨q, rfl, hq⟩ := memRead_eq_setInQ hread
    exact .finish a s.b q v s.pc
      ⟨.inr ⟨rfl, ha⟩, .inl rfl, hq.imp_right fun ⟨had, hd⟩ => ⟨decide_eq_true (had ▸ ha), hd⟩⟩ (.inr rfl) (.inl rfl)

theorem ran_execBri (h : execBri o s = .next t) : Ran (.bri o) s t := by
  rcases execBri_cases h with ⟨c, -, rfl⟩ | ⟨a, ha, hnone, rfl⟩ | ⟨a, v, s1, c, ha, hread, rfl⟩ |
    ⟨a, v, s1, p, ha, hread, -, rfl⟩
  · exact .fail_at_once _ s c
  · obtain ⟨rfl, hq⟩ := memRead_none_iff.1 hnone
    exact .wait _ (.inr ⟨rfl, ha⟩) (decide_eq_true ha) hq
  all_goals
    obtain ⟨q, rfl, hq⟩ := memRead_eq_setInQ hread
    have hread : Touches (.bri o) s a s.b q :=
      ⟨.inr ⟨rfl, ha⟩, .inl rfl, hq.imp_right fun ⟨had, hd⟩ => ⟨decide_eq_true (had ▸ ha), hd⟩⟩
  · exact .fail c a s.b q hread
  · exact .finish a s.b q s.acc p hread (.inl rfl) (.inr rfl)

theorem ran_execSta (h : execSta o s = .next t) : Ran (.sta o) s t := by
  rcases execSta_cases h with ⟨c, -, rfl⟩ | ⟨a, c, ha, -, rfl⟩ | ⟨a, ha, hwrite⟩
  · exact .fail_at_once _ s c
  · exact .fail c a s.b s.inQ ⟨.inr ⟨rfl, ha⟩, .inl rfl, .inl rfl⟩
  · rw [memWrite_setAr] at hwrite
    cases hw : memWrite a s.acc s with
    | error c => simp [hw, Except.map] at hwrite
    | ok w =>
      obtain rfl : w.setAr a = t := by simpa [hw, Except.map] using hwrite
      exact .store a a w.pc s.acc rfl ha hw (.inr ⟨rfl, rfl⟩) (.inl (memWrite_frame hw).1)

theorem ran_execBrs (h : execBrs o s = .next t) : Ran (.brs o) s t := by
  rcases execBrs_cases h with ⟨c, rfl⟩ | ⟨n, r, w, hn, -, hw, rfl⟩
  · exact .fail_at_once _ s c
  · obtain ⟨-, har, -⟩ := memWrite_frame hw
    exact .store (.int n) w.ar (.int r) s.pc rfl hn hw (.inl ⟨har, rfl⟩) (.inr rfl)

/-- Everything an instruction can do. -/
theorem exec_ran (h : exec i s = .next t) : Ran i s t := by
  cases i with
  | set o => exact ran_execSet h
  | add o | sub o | mlt o | div o => exact ran_twoOperand rfl rfl decide_eq_true h
  | neg o | inc o | dec o => exact ran_oneOperand rfl h
  | lda o => exact ran_execLda h
  | sta o => exact ran_execSta h
  | br o => exact ran_jump rfl h
  | brp o | brz o => exact ran_branchIf rfl h
  | bri o => exact ran_execBri h
  | brs o => exact ran_execBrs h
  | hlt o =>
    obtain rfl : s.setPc (.int 0) = t := Host.Outcome.next.inj h
    exact .finish_pc rfl (.int 0)


/-! ### The columns, one by one -/

namespace Ran

/-- No instruction has a column of IR, of the run status, of DIAG or of the parameters. -/
theorem unwritten (h : Ran i s t) :
    t.ir = s.ir ∧ t.running = s.running ∧ t.diag = s.diag ∧ t.params = s.params := by
  cases h with
  | fail => simp
  | wait => simp
  | finish => simp
  | store a x p v _ _ hw =>
    obtain ⟨-, -, hir, -, -, hrunning, -, -, hdiag, -, hparams⟩ := memWrite_frame hw
    simp [hir, hrunning, hdiag, hparams]

theorem ar (h : Ran i s t) : t.ar = s.ar ∨ (writesAr i = true ∧ resolve i.operand s = .ok t.ar) := by
  cases h with
  | fail c a b q h => simpa using h.ar
  | wait a ha => simpa using ha
  | finish a b q x p h => simpa using h.ar
  | store a x p v _ ha _ hx =>
    obtain ⟨rfl, -⟩ | ⟨rfl, har⟩ := hx
    · exact .inl rfl
    · exact .inr ⟨har, ha⟩

theorem acc (h : Ran i s t) : t.acc = s.acc ∨ writesAcc i = true := by
  cases h with
  | fail => simp
  | wait => simp
  | finish _ _ _ x p _ hx => simpa using hx
  | store a x p v _ _ hw =>
    obtain ⟨-, -, -, hacc, -⟩ := memWrite_frame hw
    simp [hacc]

theorem b (h : Ran i s t) : t.b = s.b ∨ writesB i = true := by
  cases h with
  | fail c a b q h => simpa using h.b
  | wait => simp
  | finish a b q x p h => simpa using h.b
  | store a x p v _ _ hw =>
    obtain ⟨-, -, -, -, hb, -⟩ := memWrite_frame hw
    simp [hb]

theorem inQ (h : Ran i s t) : t.inQ = s.inQ ∨ (readsDevice i s = true ∧ ∃ d, s.inQ = d :: t.inQ) := by
  cases h with
  | fail c a b q h => simpa using h.inQ
  | wait => simp
  | finish a b q x p h => simpa using h.inQ
  | store a x p v _ _ hw =>
    obtain ⟨-, -, -, -, -, -, -, hq, -⟩ := memWrite_frame hw
    simp [hq]

/-- PC changes in its column, and by a failure, which keeps ACC and stores nothing. -/
theorem pc_fault (h : Ran i s t) :
    (t.fault = s.fault ∧ (t.pc = s.pc ∨ writesPc i = true)) ∨
      (t.fault ≠ none ∧ t.pc = .int 0 ∧ t.acc = s.acc ∧ t.mem = s.mem ∧ t.sym = s.sym ∧ t.outLog = s.outLog) := by
  cases h with
  | fail => simp
  | wait => simp
  | finish _ _ _ x p _ _ hp => exact .inl ⟨rfl, hp⟩
  | store a x p v _ _ hw _ hp =>
    obtain ⟨-, -, -, -, -, -, hfault, -⟩ := memWrite_frame hw
    exact .inl ⟨hfault, hp⟩

/-- A wait comes from the device column, with no input, and changes AR at most. -/
theorem blocked (h : Ran i s t) :
    t.blocked = s.blocked ∨ (readsDevice i s = true ∧ s.inQ = [] ∧ t.acc = s.acc ∧ t.b = s.b ∧ t.pc = s.pc ∧
      t.fault = s.fault) := by
  cases h with
  | fail => simp
  | wait a _ hdev hq => simp [hdev, hq]
  | finish => simp
  | store a x p v _ _ hw =>
    obtain ⟨-, -, -, -, -, -, -, -, -, hblocked, -⟩ := memWrite_frame hw
    simp [hblocked]

/-- The memory column: nothing is stored, or the resolved address is written and no input is taken. -/
theorem memory (h : Ran i s t) :
    (t.mem = s.mem ∧ t.sym = s.sym ∧ t.outLog = s.outLog) ∨
      (stores i = true ∧ t.inQ = s.inQ ∧ ∃ a v w, resolve i.operand s = .ok a ∧ memWrite a v s = .ok w ∧
        (isInt a = true ∨ writesAr i = true) ∧ t.mem = w.mem ∧ t.sym = w.sym ∧ t.outLog = w.outLog) := by
  cases h with
  | fail => simp
  | wait => simp
  | finish => simp
  | store a x p v hst ha hw hx =>
    obtain ⟨-, -, -, -, -, -, -, hq, -⟩ := memWrite_frame hw
    exact .inr ⟨hst, hq, a, v, _, ha, hw, hx.imp And.right And.right, rfl, rfl, rfl⟩

theorem memory_of_not_stores (h : Ran i s t) (hst : stores i = false) :
    t.mem = s.mem ∧ t.sym = s.sym ∧ t.outLog = s.outLog := by
  simpa [hst] using h.memory

end Ran

end handlers

/-! ### The frames -/

/-- Settles O38: these four have no column but that of ACC. -/
theorem oneRegisterInstructionsFrame : Obligations.OneRegisterInstructionsFrame := by
  intro o i s t hi h
  obtain ⟨har, hb, hpc, hst, hdev⟩ : writesAr i = false ∧ writesB i = false ∧ writesPc i = false ∧
      stores i = false ∧ readsDevice i s = false := by
    simp only [List.mem_cons, List.not_mem_nil, or_false] at hi
    obtain rfl | rfl | rfl | rfl := hi <;> exact ⟨rfl, rfl, rfl, rfl, rfl⟩
  have hran := exec_ran h
  obtain ⟨hir, hrunning, hdiag, hparams⟩ := hran.unwritten
  obtain ⟨hmem, hsym, hlog⟩ := hran.memory_of_not_stores hst
  have har' : t.ar = s.ar := by simpa [har] using hran.ar
  have hb' : t.b = s.b := by simpa [hb] using hran.b
  have hq : t.inQ = s.inQ := by simpa [hdev] using hran.inQ
  have hblocked : t.blocked = s.blocked := by simpa [hdev] using hran.blocked
  refine ⟨har', hir, hb', hsym, hq, hlog, hrunning, hdiag, hblocked, hparams, by rw [hmem], fun k => by rw [hmem], ?_⟩
  rcases hran.pc_fault with ⟨hfault, hp⟩ | ⟨hfault, hp, hacc, -⟩
  · exact .inl ⟨by simpa [hpc] using hp, hfault⟩
  · exact .inr ⟨hacc, hp, hfault⟩

/-- Settles O39: these four have the columns of ACC and B, and that of the device at address 0. -/
theorem twoOperandInstructionsFrame : Obligations.TwoOperandInstructionsFrame := by
  intro o i s t hi h
  obtain ⟨har, hpc, hst, rfl⟩ : writesAr i = false ∧ writesPc i = false ∧ stores i = false ∧ i.operand = o := by
    simp only [List.mem_cons, List.not_mem_nil, or_false] at hi
    obtain rfl | rfl | rfl | rfl := hi <;> exact ⟨rfl, rfl, rfl, rfl⟩
  have hran := exec_ran h
  obtain ⟨hir, hrunning, hdiag, hparams⟩ := hran.unwritten
  obtain ⟨hmem, hsym, hlog⟩ := hran.memory_of_not_stores hst
  have har' : t.ar = s.ar := by simpa [har] using hran.ar
  refine ⟨har', hir, hsym, hlog, hrunning, hdiag, hparams, by rw [hmem], fun k => by rw [hmem], ?failure, ?input, ?wait⟩
  case failure =>
    rcases hran.pc_fault with ⟨hfault, hp⟩ | ⟨hfault, hp, hacc, -⟩
    · exact .inl ⟨by simpa [hpc] using hp, hfault⟩
    · exact .inr ⟨hacc, hp, hfault⟩
  case input => exact hran.inQ.imp_right (.imp_left resolve_of_readsDevice)
  case wait => exact hran.blocked.imp_right (.imp_left resolve_of_readsDevice)

/-- Settles O40: none of the six has a column of B or of memory; `lda` has that of ACC and the others that of PC. -/
theorem loadAndBranchInstructionsFrame : Obligations.LoadAndBranchInstructionsFrame := by
  intro o i s t hi h
  obtain ⟨hb, hst, rfl, hcols⟩ : writesB i = false ∧ stores i = false ∧ i.operand = o ∧
      ((i = .lda o ∧ writesPc i = false) ∨ (i = .bri o ∧ writesAcc i = false) ∨
        (writesAcc i = false ∧ writesAr i = false ∧ readsDevice i s = false)) := by
    simp only [List.mem_cons, List.not_mem_nil, or_false] at hi
    obtain rfl | rfl | rfl | rfl | rfl | rfl := hi <;>
      simp [writesB, stores, writesAcc, writesPc, writesAr, readsDevice, Instr.operand]
  have hran := exec_ran h
  obtain ⟨hir, hrunning, hdiag, hparams⟩ := hran.unwritten
  obtain ⟨hmem, hsym, hlog⟩ := hran.memory_of_not_stores hst
  have hb' : t.b = s.b := by simpa [hb] using hran.b
  refine ⟨hir, hb', hsym, hlog, hrunning, hdiag, hparams, by rw [hmem], fun k => by rw [hmem], ?acc, ?ldaFailure,
    ?failure, ?noAddress, ?address, ?input, ?wait⟩
  case acc =>
    intro hlda
    have hacc : writesAcc i = false := by tauto
    simpa [hacc] using hran.acc
  case ldaFailure =>
    intro hlda
    have hpc : writesPc i = false := by rw [hlda]; rfl
    rcases hran.pc_fault with ⟨hfault, hp⟩ | ⟨hfault, hp, hacc, -⟩
    · exact .inl ⟨by simpa [hpc] using hp, hfault⟩
    · exact .inr ⟨hacc, hp, hfault⟩
  case failure => exact fun _ => hran.pc_fault.imp And.left fun ⟨hfault, hp, _⟩ => ⟨hp, hfault⟩
  case noAddress =>
    intro hlda hbri
    obtain ⟨har, hdev⟩ : writesAr i = false ∧ readsDevice i s = false := by tauto
    exact ⟨by simpa [har] using hran.ar, by simpa [hdev] using hran.inQ, by simpa [hdev] using hran.blocked⟩
  case address => exact hran.ar.imp_right And.right
  case input => exact hran.inQ.imp_right (.imp_left resolve_of_readsDevice)
  case wait =>
    exact hran.blocked.imp_right fun ⟨hdev, hq, hacc, _, hp, _⟩ => ⟨resolve_of_readsDevice hdev, hq, hacc, hp⟩

/-- What an accepted write leaves alone in memory, Symbol Table and output, by the kind of its address. -/
theorem memWrite_stored {a v : Value} {s w : State} (h : memWrite a v s = .ok w) :
    (a = .int 0 ∧ w.mem = s.mem ∧ w.sym = s.sym) ∨
      (∃ z : Word, a = .int z ∧ z ≠ 0 ∧ w.sym = s.sym ∧ w.outLog = s.outLog) ∨
      (isInt a = false ∧ w.mem = s.mem ∧ w.outLog = s.outLog) := by
  rcases memWrite_cases h with ⟨rfl, rfl⟩ | ⟨n, rfl, -, rfl⟩ | ⟨z, rfl, hz, -, -, rfl⟩ | ⟨z, rfl, hz, -, -, -, rfl⟩
  · exact .inl ⟨rfl, rfl, rfl⟩
  · exact .inr (.inr ⟨rfl, rfl, rfl⟩)
  · exact .inr (.inl ⟨z, rfl, hz, rfl, rfl⟩)
  · exact .inr (.inl ⟨z, rfl, hz, rfl, rfl⟩)

/-- Settles O41: the two have the column of memory, at the resolved address; `sta` has that of AR and `brs` that of
PC. -/
theorem storingInstructionsFrame : Obligations.StoringInstructionsFrame := by
  intro o i s t hi h
  obtain ⟨hacc, hb, hdev, rfl⟩ : writesAcc i = false ∧ writesB i = false ∧ readsDevice i s = false ∧
      i.operand = o := by
    simp only [List.mem_cons, List.not_mem_nil, or_false] at hi
    obtain rfl | rfl := hi <;> exact ⟨rfl, rfl, rfl, rfl⟩
  have hran := exec_ran h
  obtain ⟨hir, hrunning, hdiag, hparams⟩ := hran.unwritten
  have hacc' : t.acc = s.acc := by simpa [hacc] using hran.acc
  have hb' : t.b = s.b := by simpa [hb] using hran.b
  have hq : t.inQ = s.inQ := by simpa [hdev] using hran.inQ
  have hblocked : t.blocked = s.blocked := by simpa [hdev] using hran.blocked
  refine ⟨hir, hacc', hb', hq, hrunning, hdiag, hblocked, hparams, ?brsAr, hran.ar.imp_right And.right, ?staPc,
    hran.pc_fault.imp And.left fun ⟨hfault, hp, _⟩ => ⟨hp, hfault⟩, ?unresolved, ?integer, ?noInteger⟩
  case brsAr =>
    intro hbrs
    have har : writesAr i = false := by rw [hbrs]; rfl
    simpa [har] using hran.ar
  case staPc =>
    intro hsta
    have hpc : writesPc i = false := by rw [hsta]; rfl
    exact hran.pc_fault.imp (fun ⟨hfault, hp⟩ => ⟨by simpa [hpc] using hp, hfault⟩)
      fun ⟨hfault, hp, _⟩ => ⟨hp, hfault⟩
  all_goals rcases hran.memory with ⟨hmem, hsym, hlog⟩ | ⟨-, -, a, v, w, ha, hw, hint, hmem, hsym, hlog⟩
  case unresolved.inl => exact fun c _ => ⟨by rw [hmem], fun k => by rw [hmem], hlog, hsym⟩
  case unresolved.inr => exact fun c hc => by simp [ha] at hc
  case integer.inl => exact fun n _ => ⟨hsym, fun k _ => by rw [hmem], fun _ => hlog, fun _ => by rw [hmem]⟩
  case integer.inr =>
    intro n hn
    obtain rfl : a = .int n := Except.ok.inj (ha.symm.trans hn)
    rw [hmem, hsym, hlog]
    rcases memWrite_stored hw with ⟨h0, hm, hs⟩ | ⟨z, hz, hne, hs, hl⟩ | ⟨hno, -⟩
    · cases h0
      exact ⟨hs, fun k _ => by rw [hm], fun hne => absurd rfl hne, fun _ => by rw [hm]⟩
    · cases hz
      refine ⟨hs, fun k hk => ?_, fun _ => hl, fun h0 => absurd h0 hne⟩
      rw [memWrite_int_read hne hw, if_neg (hk.resolve_right hne)]
    · cases hno
  case noInteger.inl => exact fun a _ _ => ⟨by rw [hmem], fun k => by rw [hmem], hlog, fun _ => hsym⟩
  case noInteger.inr =>
    intro a' ha' hno
    obtain rfl : a = a' := Except.ok.inj (ha.symm.trans ha')
    rw [hmem, hsym, hlog]
    rcases memWrite_stored hw with ⟨rfl, -⟩ | ⟨z, rfl, -⟩ | ⟨-, hm, hl⟩
    · cases hno
    · cases hno
    · refine ⟨by rw [hm], fun k => by rw [hm], hl, fun hbrs => ?_⟩
      have har : writesAr i = false := by rw [hbrs]; rfl
      simp [hno, har] at hint

/-- Settles O49: from no fault, only the failing outcome leaves one. -/
theorem failingInstructionsKeepAccAndMemory : Obligations.FailingInstructionsKeepAccAndMemory := by
  intro i s t c h hs ht
  have hran := exec_ran h
  obtain ⟨hir, -⟩ := hran.unwritten
  rcases hran.pc_fault with ⟨hfault, -⟩ | ⟨-, hp, hacc, hmem, hsym, hlog⟩
  · simp [ht, hs] at hfault
  · exact ⟨hacc, hmem, hsym, hlog, hir, hp⟩

end Sys2Proof.Machine
end

section
/-! PROOFS. The statements of 70_reset_and_hazards.md on construction, run start and the host's transactions (R131 to
R135, R144), and of 10_state.md section 5: the invariants at both resets, through every transaction, through every step
and so in every reachable state. -/

namespace Sys2Proof.Machine

/-! ### Construction and run start -/

theorem hasSlot_of_lt_two {p : Params} (hp : p.wf = true) {k : Nat} (hk : k < 2) : p.hasSlot k = true := by
  unfold Params.wf at hp
  unfold Params.hasSlot
  cases hslots : p.symSlots with
  | none => rfl
  | some n =>
    simp only [hslots, Bool.and_eq_true, decide_eq_true_eq] at hp ⊢
    omega

theorem symLookup_construct {p : Params} (hp : p.wf = true) (n : SymName) :
    symLookup (State.construct p) n = if n = 0 ∨ n = 1 then some (.int 0) else none := by
  change (if p.hasSlot n.toNat then tableGet reservedNames n.toNat else none) = _
  by_cases h0 : n = 0
  · subst h0
    simp [hasSlot_of_lt_two hp, reservedNames, tableGet, deviceAddr]
  by_cases h1 : n = 1
  · subst h1
    simp [hasSlot_of_lt_two hp, reservedNames, tableGet, deviceAddr]
  have hne0 : 0 ≠ n.toNat := fun h => h0 (BitVec.eq_of_toNat_eq h.symm)
  have hne1 : 1 ≠ n.toNat := fun h => h1 (BitVec.eq_of_toNat_eq h.symm)
  rw [if_neg (not_or.2 ⟨h0, h1⟩)]
  simp [reservedNames, tableGet, hne0, hne1]

/-- Settles O6, field by field of `Construct`. -/
theorem constructedMachineIsEmpty : Obligations.ConstructedMachineIsEmpty :=
  fun _ hp => ⟨rfl, rfl, rfl, rfl, rfl, rfl, fun _ => rfl, symLookup_construct hp, rfl, rfl, rfl, rfl, rfl, rfl⟩

@[simp] theorem betweenRuns_of_running {s : State} (h : s.running = true) (r : Result) :
    betweenRuns s r = .refused .hostDuringRun := by simp [betweenRuns, h]

@[simp] theorem betweenRuns_of_not_running {s : State} (h : s.running = false) (r : Result) :
    betweenRuns s r = r := by simp [betweenRuns, h]

theorem betweenRuns_eq_next {s t : State} {r : Result} (h : betweenRuns s r = .next t) :
    s.running = false ∧ r = .next t := by
  cases hr : s.running with
  | true => simp [hr] at h
  | false => exact ⟨rfl, by simpa [hr] using h⟩

/-- Settles O7: between runs `Run` is the run-start reset. -/
theorem runStartResetsRegistersAndKeepsTheRest : Obligations.RunStartResetsRegistersAndKeepsTheRest :=
  ⟨fun _ h => betweenRuns_of_not_running h _, rfl⟩

/-! ### The host -/

/-- Settles O8: every transaction but the last two asks first whether a run is in progress. -/
theorem hostMayOnlyObserveAndFeedDuringARun : Obligations.HostMayOnlyObserveAndFeedDuringARun := by
  intro s hr
  exact ⟨fun _ _ => betweenRuns_of_running hr _, fun _ _ => betweenRuns_of_running hr _, betweenRuns_of_running hr _,
    fun _ => betweenRuns_of_running hr _, rfl, fun _ => rfl⟩

/-- A bind that the host is allowed to make. -/
theorem hostBind_of_slot {s : State} {n : SymName} (z : Word) (hr : s.running = false) (hin : n ≠ nameIn)
    (hout : n ≠ nameOut) (hslot : s.params.hasSlot n.toNat = true) :
    hostBind n z s = .next (symBind s n (.int z)) := by
  simp [hostBind, hr, hin, hout, hslot]

/-- Settles O9: between runs the two transactions are `memWrite` and `symBind`, or one of the three refusals. -/
theorem hostWritesAndBindsBetweenRuns : Obligations.HostWritesAndBindsBetweenRuns := by
  intro s hr
  refine ⟨?accepted, ?rejected, ?bound, ?reserved, ?noSlot⟩
  case accepted =>
    intro a v t h
    simp [transact, hostWrite, hr, h]
  case rejected =>
    intro a v c h
    simp [transact, hostWrite, hr, h]
  case bound =>
    intro n z hin hout hslot
    refine ⟨symBind s n (.int z), hostBind_of_slot z hr hin hout hslot, ?_, fun k hk => ?_, rfl⟩
    · simp [symLookup_symBind, hslot]
    · simp [symLookup_symBind, hk]
  case reserved =>
    intro n z h
    simp [transact, hostBind, hr, h]
  case noSlot =>
    intro n z hin hout hslot
    simp [transact, hostBind, hr, hin, hout, hslot]

/-! ### The invariants of memory and Symbol Table -/

/-- The invariants that speak of memory and Symbol Table alone. -/
def TablesInv (s : State) : Prop :=
  (∀ e ∈ s.sym, isInt e.2 = true) ∧ symLookup s nameIn = some (.int deviceAddr) ∧
    symLookup s nameOut = some (.int deviceAddr) ∧ s.mem.cell 0 = .unset ∧ s.mem.wf = true ∧ tableSorted s.sym = true

section tables
variable {s t : State}

theorem State.Inv.tables (h : s.Inv) : TablesInv s :=
  ⟨h.sym_int, h.name_in, h.name_out, h.cell_zero, h.mem_wf, h.sym_sorted⟩

theorem symLookup_congr (hsym : t.sym = s.sym) (hparams : t.params = s.params) (n : SymName) :
    symLookup t n = symLookup s n := by simp [symLookup, hsym, hparams]

theorem TablesInv.congr (h : TablesInv s) (hmem : t.mem = s.mem) (hsym : t.sym = s.sym)
    (hparams : t.params = s.params) : TablesInv t := by
  unfold TablesInv
  rw [hmem, hsym, symLookup_congr hsym hparams, symLookup_congr hsym hparams]
  exact h

theorem isInt_iff {v : Value} : isInt v = true ↔ ∃ z, v = .int z := by
  cases v <;> simp [isInt]

/-- With these invariants every operand that resolves is an integer (R46). -/
theorem TablesInv.resolve_int (h : TablesInv s) {o : Operand} {a : Value} (ha : resolve o s = .ok a) :
    isInt a = true :=
  isInt_iff.2 (resolve_isInt (fun e he => isInt_iff.1 (h.1 e he)) ha)

/-- An accepted write to an integer address other than 0 leaves cell 0. -/
theorem memWrite_keeps_cell_zero {z : Word} {v : Value} (hzero : s.mem.cell 0 = .unset)
    (h : memWrite (.int z) v s = .ok t) : t.mem.cell 0 = .unset := by
  rcases memWrite_cases h with ⟨-, rfl⟩ | ⟨n, hn, -⟩ | ⟨w, hw, hne, hnonneg, -, rfl⟩ | ⟨w, hw, hne, hnonneg, -, -, rfl⟩
  · exact hzero
  · cases hn
  all_goals
    have hcell : 0 ≠ w.toInt.toNat := fun h0 => hne (BitVec.eq_of_toInt_eq (by simp [deviceAddr]; omega))
  · simp [hcell, hzero]
  · simp [hcell, hzero, unlisted]

theorem memWrite_int_keeps_sym {z : Word} {v : Value} (h : memWrite (.int z) v s = .ok t) : t.sym = s.sym := by
  rcases memWrite_stored h with ⟨-, -, hsym⟩ | ⟨w, -, -, hsym, -⟩ | ⟨hno, -⟩
  · exact hsym
  · exact hsym
  · cases hno

theorem memWrite_int_keeps_tables {z : Word} {v : Value} (hs : TablesInv s) (h : memWrite (.int z) v s = .ok t) :
    TablesInv t := by
  obtain ⟨hint, hin, hout, hzero, hwf, hsorted⟩ := hs
  obtain ⟨-, -, -, -, -, -, -, -, -, -, hparams⟩ := memWrite_frame h
  have hsym := memWrite_int_keeps_sym h
  unfold TablesInv
  rw [hsym, symLookup_congr hsym hparams, symLookup_congr hsym hparams]
  exact ⟨hint, hin, hout, memWrite_keeps_cell_zero hzero h, memWrite_keeps_wf hwf h, hsorted⟩

/-- With these invariants an instruction writes to integer addresses only. -/
theorem exec_keeps_tables {i : Instr} (hs : TablesInv s) (h : exec i s = .next t) : TablesInv t := by
  obtain ⟨-, -, -, hparams⟩ := (exec_ran h).unwritten
  rcases (exec_ran h).memory with ⟨hmem, hsym, -⟩ | ⟨-, -, a, v, w, ha, hw, -, hmem, hsym, -⟩
  · exact hs.congr hmem hsym hparams
  · obtain ⟨z, rfl⟩ := isInt_iff.1 (hs.resolve_int ha)
    obtain ⟨-, -, -, -, -, -, -, -, -, -, hparams'⟩ := memWrite_frame hw
    exact (memWrite_int_keeps_tables hs hw).congr hmem hsym (hparams.trans hparams'.symm)

end tables

/-! ### The invariants at reset and through the host's transactions -/

theorem construct_inv {p : Params} (hp : p.wf = true) : (State.construct p).Inv where
  pc_int := rfl
  ar_address := .inl rfl
  sym_int := by simp [State.construct, reservedNames, isInt]
  name_in := by simp [symLookup_construct hp, nameIn, deviceAddr]
  name_out := by simp [symLookup_construct hp, nameOut, deviceAddr]
  cell_zero := rfl
  mem_wf := Memory.wf_empty
  sym_sorted := by simp [State.construct, tableSorted, reservedNames]
  fault_pc := fun h => absurd rfl h
  running_pc := fun h => by simp [State.construct] at h
  blocked_running := fun h => by simp [State.construct] at h

theorem runStartReset_inv {s : State} (h : s.Inv) : (runStartReset s).Inv where
  pc_int := rfl
  ar_address := .inl rfl
  sym_int := h.sym_int
  name_in := h.name_in
  name_out := h.name_out
  cell_zero := h.cell_zero
  mem_wf := h.mem_wf
  sym_sorted := h.sym_sorted
  fault_pc := fun hf => absurd rfl hf
  running_pc := fun _ => by simp [resetPc]
  blocked_running := fun hb => by simp at hb

/-- Settles O42: by construction, and since the start of a run keeps the invariants. -/
theorem invariantsHoldAtBothResets : Obligations.InvariantsHoldAtBothResets :=
  ⟨runStartReset_inv (construct_inv (p := .unbounded) rfl), fun _ => construct_inv⟩

/-- The invariants speak of registers, status, memory and Symbol Table; where the first two are kept, those of the
other two are enough. -/
theorem State.Inv.of_tables {s t : State} (h : s.Inv) (ht : TablesInv t) (hpc : t.pc = s.pc) (har : t.ar = s.ar)
    (hfault : t.fault = s.fault) (hrunning : t.running = s.running) (hblocked : t.blocked = s.blocked) : t.Inv := by
  obtain ⟨hint, hin, hout, hzero, hwf, hsorted⟩ := ht
  exact
    { pc_int := hpc ▸ h.pc_int
      ar_address := har ▸ h.ar_address
      sym_int := hint
      name_in := hin
      name_out := hout
      cell_zero := hzero
      mem_wf := hwf
      sym_sorted := hsorted
      fault_pc := hpc ▸ hfault ▸ h.fault_pc
      running_pc := hpc ▸ hrunning ▸ h.running_pc
      blocked_running := hblocked ▸ hrunning ▸ h.blocked_running }

theorem hostWrite_eq_next {a : Word} {v : Value} {s t : State} (h : hostWrite a v s = .next t) :
    s.running = false ∧ memWrite (.int a) v s = .ok t := by
  obtain ⟨hr, h⟩ := betweenRuns_eq_next h
  refine ⟨hr, ?_⟩
  split at h
  next u hu => rw [hu, Host.Outcome.next.inj h]
  next => simp at h

theorem hostBind_eq_next {n : SymName} {z : Word} {s t : State} (h : hostBind n z s = .next t) :
    s.running = false ∧ n ≠ nameIn ∧ n ≠ nameOut ∧ s.params.hasSlot n.toNat = true ∧ t = symBind s n (.int z) := by
  obtain ⟨hr, h⟩ := betweenRuns_eq_next h
  split_ifs at h with hname hslot
  rw [not_or] at hname
  exact ⟨hr, hname.1, hname.2, hslot, (Host.Outcome.next.inj h).symm⟩

theorem symBind_keeps_tables {s : State} {n : SymName} (z : Word) (h : TablesInv s) (hin : n ≠ nameIn)
    (hout : n ≠ nameOut) : TablesInv (symBind s n (.int z)) := by
  obtain ⟨hint, hlookupIn, hlookupOut, hzero, hwf, hsorted⟩ := h
  refine ⟨fun e he => ?_, ?_, ?_, hzero, hwf, tableSorted_put _ _ hsorted⟩
  · rcases mem_tablePut he with rfl | he
    · rfl
    · exact hint e he
  · rw [symLookup_symBind, if_neg (fun h => hin h.1.symm), hlookupIn]
  · rw [symLookup_symBind, if_neg (fun h => hout h.1.symm), hlookupOut]

/-- Settles O44, transaction by transaction. -/
theorem everyTransactionKeepsTheInvariants : Obligations.EveryTransactionKeepsTheInvariants := by
  intro x s t hs h
  cases x with
  | write a v =>
    obtain ⟨-, hw⟩ := hostWrite_eq_next h
    obtain ⟨hpc, har, -, -, -, hrunning, hfault, -, -, hblocked, -⟩ := memWrite_frame hw
    exact hs.of_tables (memWrite_int_keeps_tables hs.tables hw) hpc har hfault hrunning hblocked
  | bind n z =>
    obtain ⟨-, hin, hout, -, rfl⟩ := hostBind_eq_next h
    exact hs.of_tables (symBind_keeps_tables z hs.tables hin hout) rfl rfl rfl rfl rfl
  | run =>
    obtain ⟨-, h⟩ := betweenRuns_eq_next h
    obtain rfl := Host.Outcome.next.inj h
    exact runStartReset_inv hs
  | setDiag d =>
    obtain ⟨-, h⟩ := betweenRuns_eq_next h
    obtain rfl := Host.Outcome.next.inj h
    exact hs.of_tables hs.tables rfl rfl rfl rfl rfl
  | supply v =>
    obtain rfl := Host.Outcome.next.inj h
    exact hs.of_tables hs.tables rfl rfl rfl rfl rfl
  | observe =>
    obtain rfl := Host.Outcome.next.inj h
    exact hs

/-! ### The invariants through a step -/

/-- Where an Execute phase starts, given the invariants before its cycle: PC can be 0 there, but only past address -1,
where no instruction is. -/
structure Executing (s : State) : Prop where
  tables : TablesInv s
  pc_int : isInt s.pc = true
  ar_address : s.ar = .unset ∨ isInt s.ar = true
  fault_none : s.fault = none
  running : s.running = true
  not_blocked : s.blocked = false
  pc_zero : s.pc = .int 0 → ∃ e, decodeValue s.ir = .error e

section step
variable {s t : State}

/-- What the loop test needs of a state to make it one with the invariants. -/
theorem loopTest_inv (htables : TablesInv t) (hpc : isInt t.pc = true) (har : t.ar = .unset ∨ isInt t.ar = true)
    (hfault : t.fault ≠ none → t.pc = .int 0) (hblocked : t.blocked = true → t.running = true ∧ t.pc ≠ .int 0) :
    (loopTest t).Inv := by
  have hrunning : (loopTest t).running = true → t.pc ≠ .int 0 := by
    rw [loopTest_running]
    split <;> simp_all
  obtain ⟨hint, hin, hout, hzero, hwf, hsorted⟩ :=
    htables.congr (loopTest_mem t) (loopTest_sym t) (loopTest_params t)
  exact
    { pc_int := by rwa [loopTest_pc]
      ar_address := by rwa [loopTest_ar]
      sym_int := hint
      name_in := hin
      name_out := hout
      cell_zero := hzero
      mem_wf := hwf
      sym_sorted := hsorted
      fault_pc := by rwa [loopTest_fault, loopTest_pc]
      running_pc := by rwa [loopTest_pc]
      blocked_running := by
        intro hb
        rw [loopTest_blocked] at hb
        obtain ⟨hr, hp⟩ := hblocked hb
        rw [loopTest_running, if_neg hp, hr] }

/-- A failure keeps the invariants, with the loop test that follows it. -/
theorem loopTest_dispatchFailure_inv (c : Cause) (htables : TablesInv s) (har : s.ar = .unset ∨ isInt s.ar = true)
    (hblocked : s.blocked = false) : (loopTest (dispatchFailure c s)).Inv :=
  loopTest_inv htables rfl har (fun _ => rfl) fun hb => by simp [hblocked] at hb

/-- With integer bindings PC stays an integer: every way to write it does. -/
theorem exec_pc_int {i : Instr} (htables : TablesInv s) (hpc : isInt s.pc = true) (h : exec i s = .next t) :
    isInt t.pc = true := by
  rcases exec_pc_cases h with hkept | ⟨c, u, rfl⟩ | ⟨o, rfl⟩ | ⟨o, -, ho⟩ | ⟨o, a, v, s1, -, -, -, hp⟩ | ⟨r, -, hr⟩
  · rwa [hkept]
  · rfl
  · obtain rfl : s.setPc (.int 0) = t := Host.Outcome.next.inj h
    rfl
  · exact htables.resolve_int ho
  · exact htables.resolve_int hp
  · rw [hr]
    rfl

theorem execute_inv (hs : Executing s) (h : execute s = .next t) : (loopTest t).Inv := by
  rcases execute_cases h with ⟨e, -, rfl⟩ | ⟨i, hi, h⟩
  · exact loopTest_dispatchFailure_inv _ hs.tables hs.ar_address hs.not_blocked
  have hpc : s.pc ≠ .int 0 := fun h0 => by
    obtain ⟨e, he⟩ := hs.pc_zero h0
    simp [hi] at he
  have hran := exec_ran h
  obtain ⟨-, hrunning, -⟩ := hran.unwritten
  refine loopTest_inv (exec_keeps_tables hs.tables h) (exec_pc_int hs.tables hs.pc_int h) ?ar ?fault ?blocked
  case ar =>
    rcases hran.ar with hkept | ⟨-, hresolved⟩
    · rw [hkept]
      exact hs.ar_address
    · exact .inr (hs.tables.resolve_int hresolved)
  case fault =>
    intro hfault
    rcases hran.pc_fault with ⟨hkept, -⟩ | ⟨-, hp, -⟩
    · exact absurd (hkept.trans hs.fault_none) hfault
    · exact hp
  case blocked =>
    intro hb
    rcases hran.blocked with hkept | ⟨-, -, -, -, hp, -⟩
    · simp [hkept, hs.not_blocked] at hb
    · exact ⟨hrunning.trans hs.running, hp ▸ hpc⟩

/-- An increment that arrives at 0 comes from address -1, which reads as `Unset`. -/
theorem memPeek_of_increment_to_zero {p : Word} (h : narrow (p.toInt + 1) = .ok 0) (s : State) :
    memPeek (.int p) s = .unset := by
  have hzero : (0 : Word).toInt = p.toInt + 1 := narrow_eq_ok.1 h
  exact Memory.read_of_neg s.mem (by simp at hzero; omega)

/-- The Execute phase of a cycle starts as `Executing` says. -/
theorem executing_of_increment (hs : s.Inv) (hr : s.running = true) (hb : s.blocked = false) {p q : Word}
    (hp : s.pc = .int p) (hq : narrow (p.toInt + 1) = .ok q) : Executing ((fetch s).setPc (.int q)) where
  tables := hs.tables
  pc_int := rfl
  ar_address := .inr hs.pc_int
  fault_none := not_not.1 fun hf => hs.running_pc hr (hs.fault_pc hf)
  running := hr
  not_blocked := hb
  pc_zero := by
    intro h0
    obtain rfl : q = 0 := Value.int.inj h0
    exact ⟨.notAnInstruction, by simp [fetch, hp, memPeek_of_increment_to_zero hq, decodeValue]⟩

/-- The rest of a waiting cycle starts as `Executing` says. -/
theorem executing_of_blocked (hs : s.Inv) (hr : s.running = true) : Executing (s.setBlocked false) where
  tables := hs.tables
  pc_int := hs.pc_int
  ar_address := hs.ar_address
  fault_none := not_not.1 fun hf => hs.running_pc hr (hs.fault_pc hf)
  running := hr
  not_blocked := rfl
  pc_zero := fun h0 => absurd h0 (hs.running_pc hr)

end step

/-- Settles O43, way by way of a step: nothing is done, a waiting Execute phase goes on, or a cycle fails at its
increment or executes. -/
theorem everyStepKeepsTheInvariants : Obligations.EveryStepKeepsTheInvariants := by
  intro s t hs h
  rcases step_cases h with ⟨-, rfl⟩ | ⟨-, -, -, rfl⟩ | ⟨hr, -, -, u, hu, rfl⟩ | ⟨hr, -, hp, -⟩ | ⟨hr, hb, -, u, hu, rfl⟩
  · exact hs
  · exact hs
  · exact execute_inv (executing_of_blocked hs hr) hu
  · exact absurd hp (hs.running_pc hr)
  · obtain ⟨p, hp, ⟨c, -, rfl⟩ | ⟨q, hq, hexec⟩⟩ := incrementAndExecute_cases hu
    · exact loopTest_dispatchFailure_inv c hs.tables (.inr hs.pc_int) hb
    · exact execute_inv (executing_of_increment hs hr hb hp hq) hexec

/-- Settles O45, by induction on how the state is reached. -/
theorem everyReachableStateHasTheInvariants : Obligations.EveryReachableStateHasTheInvariants := by
  intro s hs
  induction hs with
  | construct p hp => exact construct_inv hp
  | step _ h ih => exact everyStepKeepsTheInvariants _ _ ih h
  | transact x _ h ih => exact everyTransactionKeepsTheInvariants x _ _ ih h

end Sys2Proof.Machine
end

section
/-! PROOFS. The rules about every step: there is always one (40_cycle_and_dispatch.md section 4), and what it can move in
memory, Symbol Table and devices (10_state.md section 3, 20_memory.md section 5, 60_exceptions.md section 3). -/

namespace Sys2Proof.Machine

/-! ### A next state -/

theorem exists_next_twoOperand (op : Int → Int → Except Cause Int) (o : Operand) (s : State) :
    ∃ t, twoOperand op o s = .next t :=
  exists_next_orRaise fun _ _ => exists_next_orWait fun _ _ _ => exists_next_orRaise fun _ _ =>
    exists_next_orRaise fun _ _ => exists_next_orRaise fun _ _ => exists_next_orRaise fun _ _ => ⟨_, rfl⟩

theorem exists_next_oneOperand (op : Int → Int) (s : State) : ∃ t, oneOperand op s = .next t :=
  exists_next_orRaise fun _ _ => exists_next_orRaise fun _ _ => ⟨_, rfl⟩

theorem exists_next_jump (o : Operand) (s : State) : ∃ t, jump o s = .next t :=
  exists_next_orRaise fun _ _ => ⟨_, rfl⟩

theorem exists_next_branchIf (test : Int → Bool) (o : Operand) (s : State) : ∃ t, branchIf test o s = .next t := by
  refine exists_next_orRaise fun x _ => ?_
  split
  · exact exists_next_jump o s
  · exact ⟨s, rfl⟩

theorem exists_next_exec (i : Instr) (s : State) : ∃ t, exec i s = .next t := by
  cases i with
  | set o => exact exists_next_orRaise fun _ _ => ⟨_, rfl⟩
  | add o | sub o | mlt o | div o => exact exists_next_twoOperand _ o s
  | neg o | inc o | dec o => exact exists_next_oneOperand _ s
  | lda o => exact exists_next_orRaise fun _ _ => exists_next_orWait fun _ _ _ => ⟨_, rfl⟩
  | sta o => exact exists_next_orRaise fun _ _ => exists_next_orRaise fun _ _ => ⟨_, rfl⟩
  | br o => exact exists_next_jump o s
  | brp o | brz o => exact exists_next_branchIf _ o s
  | bri o =>
    exact exists_next_orRaise fun _ _ => exists_next_orWait fun _ _ _ => exists_next_orRaise fun _ _ => ⟨_, rfl⟩
  | brs o =>
    exact exists_next_orRaise fun _ _ => exists_next_orRaise fun _ _ => exists_next_orRaise fun _ _ =>
      exists_next_orRaise fun _ _ => ⟨_, rfl⟩
  | hlt o => exact ⟨_, rfl⟩

theorem exists_next_execute (s : State) : ∃ t, execute s = .next t := by
  unfold execute
  split
  · exact exists_next_exec _ s
  · exact ⟨_, rfl⟩

theorem exists_next_andThen {r : Result} {k : State → State} (h : ∃ t, r = .next t) :
    ∃ t, (andThen r fun u => .next (k u)) = .next t := by
  obtain ⟨t, rfl⟩ := h
  exact ⟨k t, rfl⟩

/-- With an integer PC the increment has a meaning, and so has the cycle. -/
theorem exists_next_cycle {s : State} (h : isInt s.pc = true) : ∃ t, cycle s = .next t := by
  obtain ⟨p, hp⟩ := isInt_iff.1 h
  refine exists_next_andThen ?_
  simp only [incrementAndExecute, fetch, State.setIr_pc, State.setAr_pc, hp]
  exact exists_next_orRaise fun q _ => exists_next_execute _

/-- Settles O46, handler by handler and then way by way of a step. -/
theorem stepAlwaysAnswersANextState : Obligations.StepAlwaysAnswersANextState := by
  refine ⟨exists_next_exec, fun s hs => ?_⟩
  cases hr : s.running with
  | false => exact ⟨s, step_of_not_running hr⟩
  | true =>
    cases hb : s.blocked with
    | false =>
      rw [step_of_cycle hr hb (hs.running_pc hr)]
      exact exists_next_cycle hs.pc_int
    | true =>
      rw [step_of_blocked hr hb, resume]
      split
      · exact ⟨s, rfl⟩
      · exact exists_next_andThen (exists_next_execute _)

/-- Settles O37: both are ways of a step on their own. -/
theorem noStepIsTakenWithoutARunOrWithoutInput : Obligations.NoStepIsTakenWithoutARunOrWithoutInput := by
  refine ⟨fun s => step_of_not_running, fun s hr hb hq => ?_⟩
  rw [step_of_blocked hr hb, resume, hq]

/-- Settles O51: a failure has set PC to 0, where no run is in progress. -/
theorem faultKeepsTheFirstCause : Obligations.FaultKeepsTheFirstCause := by
  intro s t hs hfault h
  have hr : s.running = false := Bool.eq_false_iff.2 fun hr => hs.running_pc hr (hs.fault_pc hfault)
  exact (Host.Outcome.next.inj ((step_of_not_running hr).symm.trans h)).symm

/-! ### What a step can move -/

/-- Do two states agree in memory, Symbol Table, device histories, DIAG and parameters? -/
def SameStore (s t : State) : Prop :=
  s.mem = t.mem ∧ s.sym = t.sym ∧ s.inQ = t.inQ ∧ s.outLog = t.outLog ∧ s.diag = t.diag ∧ s.params = t.params

/-- What a step from `s` to `t` can move in these: memory grows, one input is taken or one output given, and SYM stays
where every binding is an integer. -/
structure Moves (s t : State) : Prop where
  diag : t.diag = s.diag
  params : t.params = s.params
  len : s.mem.len ≤ t.mem.len
  devices : (t.outLog = s.outLog ∧ (t.inQ = s.inQ ∨ ∃ d, s.inQ = d :: t.inQ)) ∨
    (t.inQ = s.inQ ∧ (t.outLog = s.outLog ∨ ∃ v, t.outLog = s.outLog ++ [v]))
  sym : (∀ e ∈ s.sym, isInt e.2 = true) → t.sym = s.sym

section moves
variable {s t : State}

theorem Moves.of_sameStore (h : SameStore s t) : Moves s t := by
  obtain ⟨hmem, hsym, hq, hlog, hdiag, hparams⟩ := h
  exact ⟨hdiag.symm, hparams.symm, by rw [hmem], .inl ⟨hlog.symm, .inl hq.symm⟩, fun _ => hsym.symm⟩

theorem Moves.congr {s' t' : State} (hs : SameStore s s') (h : Moves s' t') (ht : SameStore t' t) : Moves s t := by
  obtain ⟨hmem, hsym, hq, hlog, hdiag, hparams⟩ := hs
  obtain ⟨hmem', hsym', hq', hlog', hdiag', hparams'⟩ := ht
  exact
    { diag := by rw [← hdiag', h.diag, hdiag]
      params := by rw [← hparams', h.params, hparams]
      len := by
        rw [← hmem', hmem]
        exact h.len
      devices := by
        rw [← hlog', ← hq', hlog, hq]
        exact h.devices
      sym := by
        rw [← hsym', hsym]
        exact h.sym }

theorem sameStore_loopTest (s : State) : SameStore s (loopTest s) := by simp [SameStore]

theorem memWrite_len {a v : Value} (h : memWrite a v s = .ok t) : s.mem.len ≤ t.mem.len := by
  rcases memWrite_cases h with ⟨-, rfl⟩ | ⟨n, -, -, rfl⟩ | ⟨z, -, -, -, -, rfl⟩ | ⟨z, -, -, -, hlen, -, rfl⟩
  · exact le_rfl
  · exact le_rfl
  · exact le_rfl
  · exact Nat.le_succ_of_le hlen

theorem memWrite_outLog {a v : Value} (h : memWrite a v s = .ok t) :
    t.outLog = s.outLog ∨ ∃ w, t.outLog = s.outLog ++ [w] := by
  rcases memWrite_cases h with ⟨-, rfl⟩ | ⟨n, -, -, rfl⟩ | ⟨z, -, -, -, -, rfl⟩ | ⟨z, -, -, -, -, -, rfl⟩
  · exact .inr ⟨v, rfl⟩
  · exact .inl rfl
  · exact .inl rfl
  · exact .inl rfl

theorem exec_moves {i : Instr} (h : exec i s = .next t) : Moves s t := by
  have hran := exec_ran h
  obtain ⟨-, -, hdiag, hparams⟩ := hran.unwritten
  rcases hran.memory with ⟨hmem, hsym, hlog⟩ | ⟨-, hq, a, v, w, ha, hw, -, hmem, hsym, hlog⟩
  · exact ⟨hdiag, hparams, by rw [hmem], .inl ⟨hlog, hran.inQ.imp_right And.right⟩, fun _ => hsym⟩
  · refine ⟨hdiag, hparams, hmem ▸ memWrite_len hw, .inr ⟨hq, hlog ▸ memWrite_outLog hw⟩, fun hint => ?_⟩
    obtain ⟨z, rfl⟩ := resolve_isInt (fun e he => isInt_iff.1 (hint e he)) ha
    rw [hsym, memWrite_int_keeps_sym hw]

theorem execute_moves (h : execute s = .next t) : Moves s t := by
  rcases execute_cases h with ⟨e, -, rfl⟩ | ⟨i, -, h⟩
  · exact .of_sameStore ⟨rfl, rfl, rfl, rfl, rfl, rfl⟩
  · exact exec_moves h

/-- Everything a step can move: outside its Execute phase it writes registers and status only. -/
theorem step_moves (h : step s = .next t) : Moves s t := by
  rcases step_cases h with ⟨-, rfl⟩ | ⟨-, -, -, rfl⟩ | ⟨-, -, -, u, hu, rfl⟩ | ⟨-, -, -, rfl⟩ | ⟨-, -, -, u, hu, rfl⟩
  · exact .of_sameStore ⟨rfl, rfl, rfl, rfl, rfl, rfl⟩
  · exact .of_sameStore ⟨rfl, rfl, rfl, rfl, rfl, rfl⟩
  · exact .congr (s' := s.setBlocked false) ⟨rfl, rfl, rfl, rfl, rfl, rfl⟩ (execute_moves hu) (sameStore_loopTest u)
  · exact .of_sameStore (sameStore_loopTest s)
  · obtain ⟨p, -, ⟨c, -, rfl⟩ | ⟨q, -, hexec⟩⟩ := incrementAndExecute_cases hu
    · exact .congr (s' := s) ⟨rfl, rfl, rfl, rfl, rfl, rfl⟩ (.of_sameStore ⟨rfl, rfl, rfl, rfl, rfl, rfl⟩)
        (sameStore_loopTest (dispatchFailure c s))
    · exact .congr (s' := (fetch s).setPc (.int q)) ⟨rfl, rfl, rfl, rfl, rfl, rfl⟩ (execute_moves hexec)
        (sameStore_loopTest u)

end moves

/-- Settles O47: a step moves MLEN up, and of the transactions only a write touches memory. -/
theorem memoryNeverShrinks : Obligations.MemoryNeverShrinks := by
  rintro s t (h | ⟨x, h⟩)
  · exact (step_moves h).len
  cases x with
  | write a v => exact memWrite_len (hostWrite_eq_next h).2
  | bind n z =>
    obtain ⟨-, -, -, -, rfl⟩ := hostBind_eq_next h
    exact le_rfl
  | run | setDiag =>
    obtain rfl := Host.Outcome.next.inj (betweenRuns_eq_next h).2
    exact le_rfl
  | supply | observe =>
    obtain rfl := Host.Outcome.next.inj h
    exact le_rfl

/-- Settles O48, from what a step can move. -/
theorem stepNeverChangesTheSymbolTable : Obligations.StepNeverChangesTheSymbolTable := by
  intro s t hs h
  have hmoves := step_moves h
  refine ⟨hmoves.sym hs.sym_int, hmoves.diag, hmoves.params, ?_⟩
  rcases hmoves.devices with ⟨hlog, hq | ⟨d, hq⟩⟩ | ⟨hq, hlog | ⟨v, hlog⟩⟩ <;> simp [hlog, hq]

/-- Settles O52, from what a step can move. -/
theorem stepTakesAtMostOneInputAndGivesAtMostOneOutput :
    Obligations.StepTakesAtMostOneInputAndGivesAtMostOneOutput := by
  intro s t h
  rcases (step_moves h).devices with ⟨hlog, hq⟩ | ⟨hq, hlog⟩
  · exact ⟨hq, .inl hlog, .inr hlog⟩
  · exact ⟨.inl hq, hlog, .inl hq⟩

end Sys2Proof.Machine
end

section
/-! PROOFS. The statements of 20_memory.md on `MemWrite` (R40), its growth loop and memory as a function, and that of
30_encoding.md section 4 on the Loader's pass. -/

namespace Sys2Proof.Machine

/-! ### The arms of `MemWrite` -/

section writes
variable {s t : State} {v : Value}

theorem memWrite_name_of_bound {n : SymName} {w : Value} (v : Value) (h : symLookup s n = some w) :
    memWrite (.name n) v s = .ok (symBind s n v) := by simp [memWrite, h]

theorem memWrite_name_of_unbound {n : SymName} (v : Value) (h : symLookup s n = none) :
    memWrite (.name n) v s = .error .addressOutOfRange := by simp [memWrite, h]

/-- A bound name has a slot. -/
theorem hasSlot_of_symLookup {n : SymName} {w : Value} (h : symLookup s n = some w) :
    s.params.hasSlot n.toNat = true := by
  unfold symLookup at h
  split at h
  next hslot => exact hslot
  next => simp at h

theorem memWrite_int_rejected {z : Word} (v : Value) (hz : z ≠ 0)
    (h : z.toInt < 0 ∨ (s.mem.len ≤ z.toInt ∧ s.params.hasCell z.toInt.toNat = false)) :
    memWrite (.int z) v s = .error .addressOutOfRange := by
  unfold memWrite
  rw [if_neg (int_ne_device hz)]
  rcases h with hneg | ⟨hlen, hcell⟩
  · simp [hneg]
  · have hbeyond : ¬ z.toInt.toNat < s.mem.len := by omega
    simp [hbeyond, hcell]

/-- MLEN after an accepted write to an integer address other than 0. -/
theorem memWrite_int_len {z : Word} (hz : z ≠ 0) (h : memWrite (.int z) v s = .ok t) :
    t.mem.len = max s.mem.len (z.toInt.toNat + 1) := by
  rcases memWrite_cases h with ⟨hdev, -⟩ | ⟨n, hn, -⟩ | ⟨w, hw, -, -, hlt, rfl⟩ | ⟨w, hw, -, -, hge, -, rfl⟩
  · exact absurd hdev (int_ne_device hz)
  · cases hn
  · cases hw
    simp only [State.setMem_mem, Memory.len_overwrite]
    omega
  · cases hw
    simp only [State.setMem_mem, Memory.len_grow]
    omega

end writes

/-- Settles O13, arm by arm of block R40. -/
theorem memWriteTakesTheFirstArmThatApplies : Obligations.MemWriteTakesTheFirstArmThatApplies := by
  intro a v s
  refine ⟨?output, ?boundName, ?unboundName, ?accepted, ?rejected, ?unset, ?record⟩
  case output =>
    rintro rfl
    exact memWrite_device v s
  case boundName =>
    rintro n w rfl h
    refine ⟨symBind s n v, memWrite_name_of_bound v h, ?_, fun k hk => ?_, rfl⟩
    · simp [symLookup_symBind, hasSlot_of_symLookup h]
    · simp [symLookup_symBind, hk]
  case unboundName =>
    rintro n rfl h
    exact memWrite_name_of_unbound v h
  case accepted =>
    rintro z rfl hz h0 h
    obtain ⟨m, hm⟩ := memWrite_int_ok v s hz h0 h
    have hread := memWrite_int_read hz hm
    exact ⟨m, hm, (hread z.toInt).trans (if_pos rfl), fun k hk => (hread k).trans (if_neg hk), memWrite_int_len hz hm⟩
  case rejected =>
    rintro z rfl h
    rcases h with hneg | ⟨hlen, hz, hcell⟩
    · exact memWrite_int_rejected v (ne_zero_of_toInt_neg hneg) (.inl hneg)
    · exact memWrite_int_rejected v hz (.inr ⟨hlen, hcell⟩)
  case unset =>
    rintro rfl
    rfl
  case record =>
    rintro m o rfl
    rfl

/-! ### Growth and memory as a function -/

theorem Memory.wf_succ_len {m : Memory} (h : m.wf = true) : (⟨m.cells, m.len + 1⟩ : Memory).wf = true := by
  rw [Memory.wf_iff] at *
  exact ⟨h.1, fun e he => ⟨(h.2 e he).1, Nat.lt_succ_of_lt (h.2 e he).2⟩⟩

/-- The growth loop makes cells that exist and lists none. -/
theorem Memory.appendUnsets_eq {m : Memory} (h : m.wf = true) (k : Nat) :
    m.appendUnsets k = ⟨m.cells, m.len + k⟩ ∧ (m.appendUnsets k).wf = true := by
  induction k with
  | zero => exact ⟨rfl, h⟩
  | succ k ih =>
    obtain ⟨heq, hwf⟩ := ih
    have happend : m.appendUnsets (k + 1) = ⟨m.cells, m.len + (k + 1)⟩ := by
      rw [Memory.appendUnsets, Memory.appendUnset_eq hwf, heq, Nat.add_assoc]
    refine ⟨happend, ?_⟩
    rw [heq] at hwf
    rw [happend]
    exact Memory.wf_succ_len hwf

/-- In canonical form no cell is listed at MLEN or beyond. -/
theorem Memory.tableBelow_len {m : Memory} (h : m.wf = true) : tableBelow m.cells m.len = m.cells :=
  List.filter_eq_self.2 fun e he => decide_eq_true (((Memory.wf_iff m).1 h).2 e he).2

/-- Settles O15: the loop lists nothing, so the overwrite after it writes to the cells that growth in one move writes
to. -/
theorem growthIsTheCellByCellLoop : Obligations.GrowthIsTheCellByCellLoop := by
  intro m n v h hn
  have hlen : m.len + (n + 1 - m.len) = n + 1 := by omega
  rw [(Memory.appendUnsets_eq h _).1, hlen, Memory.grow, Memory.tableBelow_len h]
  rfl

/-- Settles O16, from what an accepted write does to every read of memory. -/
theorem readsGiveTheLastValueWritten : Obligations.ReadsGiveTheLastValueWritten := by
  intro n v s t hn h k hk
  refine ⟨?_, memRead_of_ne s (int_ne_device hk)⟩
  rw [memRead_int t hk, memWrite_int_read hn h k.toInt]
  simp only [BitVec.toInt_inj, memPeek]

/-! ### The Loader's pass -/

section loader
variable {k : Nat} {l : SourceLine} {s t : State}

/-- The address of a line as a word. -/
theorem ofNat_ne_zero (hk : 0 < k) (hmax : (k : Int) ≤ intMax) : BitVec.ofNat 64 k ≠ 0 := by
  intro h
  have hint := toInt_ofNat_of_le hmax
  rw [h] at hint
  simp at hint
  omega

/-- What the writing of a line's record leaves. -/
theorem hostWrite_record (hk : 0 < k) (hmax : (k : Int) ≤ intMax) {v : Value}
    (h : hostWrite (BitVec.ofNat 64 k) v s = .next t) :
    (∀ m : Int, t.mem.read m = if m = k then v else s.mem.read m) ∧ ∀ n, symLookup t n = symLookup s n := by
  obtain ⟨-, hw⟩ := hostWrite_eq_next h
  obtain ⟨-, -, -, -, -, -, -, -, -, -, hparams⟩ := memWrite_frame hw
  refine ⟨fun m => ?_, symLookup_congr (memWrite_int_keeps_sym hw) hparams⟩
  rw [memWrite_int_read (ofNat_ne_zero hk hmax) hw m, toInt_ofNat_of_le hmax]

/-- What an accepted line leaves: its record in cell `k` and its label, which was not bound before, bound to `k`. -/
structure LineLoaded (k : Nat) (l : SourceLine) (s t : State) : Prop where
  record : t.mem.read (k : Nat) = .instr l.opcode l.operand
  others : ∀ m : Int, m ≠ k → t.mem.read m = s.mem.read m
  label : ∀ n, l.label = some n → symLookup t n = some (.int (BitVec.ofNat 64 k))
  bound : ∀ n v, symLookup s n = some v → symLookup t n = some v

theorem loadLine_loaded (hk : 0 < k) (h : loadLine k l s = .next t) : LineLoaded k l s t := by
  unfold loadLine at h
  split at h
  · cases h
  next hmax =>
    rw [not_lt] at hmax
    cases hl : l.label with
    | none =>
      simp only [hl] at h
      obtain ⟨hread, hsym⟩ := hostWrite_record hk hmax h
      exact ⟨(hread k).trans (if_pos rfl), fun m hm => (hread m).trans (if_neg hm), fun n hn => by simp [hl] at hn,
        fun n v hv => (hsym n).trans hv⟩
    | some n =>
      simp only [hl] at h
      split at h
      next => cases (betweenRuns_eq_next h).2
      next hfree =>
        obtain ⟨u, hu, h⟩ := andThen_eq_next h
        obtain ⟨-, hin, hout, hslot, rfl⟩ := hostBind_eq_next hu
        obtain ⟨hread, hsym⟩ := hostWrite_record hk hmax h
        have hunbound : symLookup s n = none := by simpa [hin, hout] using hfree
        refine ⟨(hread k).trans (if_pos rfl), fun m hm => (hread m).trans (if_neg hm), fun n' hn' => ?_,
          fun n' v hv => ?_⟩
        · obtain rfl : n = n' := Option.some.inj (hl.symm.trans hn')
          simp [hsym, symLookup_symBind, hslot]
        · have hne : n' ≠ n := fun heq => by simp [heq, hunbound] at hv
          simp [hsym, symLookup_symBind, hne, hv]

/-- What the pass from address `k` on leaves: each accepted line as `loadLine` leaves it, and what was there before. -/
theorem loadLines_loaded {ls : List (Option SourceLine)} (hk : 0 < k) (h : loadLines k ls s = .next t) :
    (∀ (j : Nat) (l : SourceLine), (ls.filterMap id)[j]? = some l →
      t.mem.read (k + j : Nat) = .instr l.opcode l.operand ∧
        ∀ n, l.label = some n → symLookup t n = some (.int (BitVec.ofNat 64 (k + j)))) ∧
      (∀ m : Int, m < k → t.mem.read m = s.mem.read m) ∧ ∀ n v, symLookup s n = some v → symLookup t n = some v := by
  induction ls generalizing k s with
  | nil =>
    obtain rfl := Host.Outcome.next.inj h
    simp
  | cons line ls ih =>
    cases line with
    | none => exact ih hk h
    | some l =>
      obtain ⟨u, hu, h⟩ := andThen_eq_next h
      have hline := loadLine_loaded hk hu
      obtain ⟨hlater, hbelow, hbound⟩ := ih (Nat.succ_pos k) h
      refine ⟨fun j l' hl' => ?_, fun m hm => ?_, fun n v hv => hbound n v (hline.bound n v hv)⟩
      · cases j with
        | zero =>
          obtain rfl : l = l' := by simpa using hl'
          exact ⟨(hbelow k (by omega)).trans hline.record, fun n hn => hbound n _ (hline.label n hn)⟩
        | succ j =>
          have hnext := hlater j l' (by simpa using hl')
          rwa [Nat.succ_add_eq_add_succ] at hnext
      · rw [hbelow m (by omega), hline.others m (by omega)]

end loader

/-- Settles O10: the pass from address 1 on, by induction on the lines; a later line writes a higher cell and binds a
name that was not bound. -/
theorem loaderPlacesAcceptedLinesAtSuccessiveAddresses : Obligations.LoaderPlacesAcceptedLinesAtSuccessiveAddresses := by
  intro ls s t h j l hl
  have hloaded := (loadLines_loaded Nat.one_pos h).1 j l hl
  rwa [Nat.add_comm 1 j] at hloaded

end Sys2Proof.Machine
end

section
/-! PROOFS. The results of the instructions (41_set_and_arithmetic.md to 43_control_transfer.md): one lemma for each way
a shared handler pattern can end, and the statements instruction by instruction from them. -/

namespace Sys2Proof.Machine

/-! ### The two-operand pattern -/

section twoOperand
variable {op : Int → Int → Except Cause Int} {o : Operand} {s s1 : State} {a v : Value} {x y : Word} {z : Int}
  {c : Cause}

theorem toInt_of_isInt_eq_false (h : isInt v = false) : toInt v = .error .nonNumericOperand :=
  toInt_of_not_int fun z hz => by simp [hz, isInt] at h

/-- The operation itself fails: ACC is kept, B written. -/
theorem twoOperand_of_op_error (ha : resolve o s = .ok a) (hread : memRead a s = some (.int y, s1))
    (hacc : s.acc = .int x) (hop : op x.toInt y.toInt = .error c) :
    twoOperand op o s = .next (dispatchFailure c (s1.setB (.int y))) := by
  have hacc1 : s1.acc = .int x := (memRead_keeps_acc hread).trans hacc
  simp [twoOperand, ha, hread, hacc1, hop]

/-- The result is out of range: ACC is kept, B written. -/
theorem twoOperand_of_out_of_range (ha : resolve o s = .ok a) (hread : memRead a s = some (.int y, s1))
    (hacc : s.acc = .int x) (hop : op x.toInt y.toInt = .ok z) (hz : z < intMin ∨ intMax < z) :
    twoOperand op o s = .next (dispatchFailure .integerOverflow (s1.setB (.int y))) := by
  have hacc1 : s1.acc = .int x := (memRead_keeps_acc hread).trans hacc
  have hnarrow : narrow z = .error .integerOverflow := narrow_eq_error.2 ⟨rfl, hz⟩
  simp [twoOperand, ha, hread, hacc1, hop, hnarrow]

/-- ACC or the Value read is no integer: ACC is kept, B written. -/
theorem twoOperand_of_uncoercible (ha : resolve o s = .ok a) (hread : memRead a s = some (v, s1))
    (h : isInt s.acc = false ∨ isInt v = false) :
    twoOperand op o s = .next (dispatchFailure .nonNumericOperand (s1.setB v)) := by
  have hacc1 : s1.acc = s.acc := memRead_keeps_acc hread
  simp only [twoOperand, ha, hread, hacc1, orRaise_ok, orWait_some]
  cases hx : toInt s.acc with
  | error c => rw [toInt_error hx, orRaise_error]
  | ok x =>
    have hacc : isInt s.acc = true := by
      obtain ⟨w, hw, -⟩ := toInt_ok hx
      rw [hw]
      rfl
    rw [toInt_of_isInt_eq_false (h.resolve_left (by simp [hacc]))]
    rfl

/-- `add`, `sub`, `mlt` and `div` are the pattern, each with its operation. -/
theorem exec_eq_twoOperand {i : Instr} (hi : i ∈ [Instr.add o, .sub o, .mlt o, .div o]) :
    ∃ op, ∀ s, exec i s = twoOperand op o s := by
  simp only [List.mem_cons, List.not_mem_nil, or_false] at hi
  obtain rfl | rfl | rfl | rfl := hi <;> exact ⟨_, fun _ => rfl⟩

end twoOperand

/-- Settles O19: an integer that a word holds is in range. -/
theorem addSubMltWriteTheExactResult : Obligations.AddSubMltWriteTheExactResult := by
  intro o s s1 a x y r ha hread hacc
  exact ⟨fun hr => twoOperand_of_narrow ha hread hacc rfl (narrow_eq_ok.2 hr),
    fun hr => twoOperand_of_narrow ha hread hacc rfl (narrow_eq_ok.2 hr),
    fun hr => twoOperand_of_narrow ha hread hacc rfl (narrow_eq_ok.2 hr)⟩

/-- Settles O21: the divisor is tested before the division, and the quotient of `INT_MIN` by -1 is past `INT_MAX`. -/
theorem divFailsByZeroAndAtTheEndOfTheRange : Obligations.DivFailsByZeroAndAtTheEndOfTheRange := by
  intro o s s1 a x y ha hread hacc
  constructor
  · intro hy
    exact twoOperand_of_op_error ha hread hacc (by simp [floorDivide, hy])
  · intro hx hy
    have hop : floorDivide x.toInt y.toInt = .ok (intMax + 1) := by
      rw [hx, hy]
      rfl
    exact twoOperand_of_out_of_range ha hread hacc hop (.inr (by decide))

/-! ### The one-operand pattern -/

section oneOperand
variable {op : Int → Int} {s : State} {x r : Word}

theorem oneOperand_of_narrow (hacc : s.acc = .int x) (hr : r.toInt = op x.toInt) :
    oneOperand op s = .next (s.setAcc (.int r)) := by
  simp [oneOperand, hacc, narrow_eq_ok.2 hr]

theorem oneOperand_of_out_of_range (hacc : s.acc = .int x) (h : op x.toInt < intMin ∨ intMax < op x.toInt) :
    oneOperand op s = .next (dispatchFailure .integerOverflow s) := by
  simp [oneOperand, hacc, narrow_eq_error.2 ⟨rfl, h⟩]

end oneOperand

/-- Settles O23: an integer that a word holds is in range. -/
theorem negIncDecWriteTheExactResult : Obligations.NegIncDecWriteTheExactResult :=
  fun _ _ _ _ hacc => ⟨fun hr => oneOperand_of_narrow hacc hr, fun hr => oneOperand_of_narrow hacc hr,
    fun hr => oneOperand_of_narrow hacc hr⟩

/-- Settles O22: both patterns end in `IntegerOverflow` where the result is out of range; for `neg`, `inc` and `dec`
that is at one end of the range each. -/
theorem resultsOutOfRangeRaiseIntegerOverflow : Obligations.ResultsOutOfRangeRaiseIntegerOverflow := by
  constructor
  · intro o s s1 a x y ha hread hacc
    exact ⟨twoOperand_of_out_of_range ha hread hacc rfl, twoOperand_of_out_of_range ha hread hacc rfl,
      twoOperand_of_out_of_range ha hread hacc rfl⟩
  · intro o s x hacc
    refine ⟨fun hx => oneOperand_of_out_of_range hacc (.inr ?_), fun hx => oneOperand_of_out_of_range hacc (.inr ?_),
      fun hx => oneOperand_of_out_of_range hacc (.inl ?_)⟩
    all_goals
      rw [hx]
      decide

/-- `neg`, `inc`, `dec`, `brp` and `brz` coerce ACC first. -/
theorem exec_coerces_acc {o : Operand} {i : Instr} (hi : i ∈ [Instr.neg o, .inc o, .dec o, .brp o, .brz o])
    (s : State) : ∃ k, exec i s = orRaise (toInt s.acc) s k := by
  simp only [List.mem_cons, List.not_mem_nil, or_false] at hi
  obtain rfl | rfl | rfl | rfl | rfl := hi <;> exact ⟨_, rfl⟩

/-- Settles O24, by the coercions of the two-operand pattern and by the one that comes first elsewhere. -/
theorem uncoercibleValuesRaiseNonNumericOperand : Obligations.UncoercibleValuesRaiseNonNumericOperand := by
  constructor
  · intro o s s1 a v i hi ha hread h
    obtain ⟨op, hop⟩ := exec_eq_twoOperand hi
    exact (hop s).trans (twoOperand_of_uncoercible ha hread h)
  · intro o s i hi h
    obtain ⟨k, hk⟩ := exec_coerces_acc hi s
    rw [hk, toInt_of_isInt_eq_false h]
    rfl

/-! ### `set`, `lda`, `sta` -/

/-- Settles O18: the operand is the literal itself, or the failure is raised at once. -/
theorem setLoadsTheLiteral : Obligations.SetLoadsTheLiteral :=
  fun _ => ⟨fun _ => rfl, fun _ => rfl, rfl⟩

/-- Settles O25: both are a read that completes. -/
theorem ldaCopiesTheWholeValue : Obligations.LdaCopiesTheWholeValue := by
  intro o s a ha
  refine ⟨fun hdev => execLda_of_memRead ha (memRead_of_ne s hdev), fun d q h0 hq => ?_⟩
  have hread : memRead a s = some (d.toValue, s.setInQ q) := by
    rw [h0]
    exact (memRead_device s).trans (devIn_of_cons hq)
  exact execLda_of_memRead ha hread

/-- A rejected write leaves AR as `sta` wrote it before. -/
theorem execSta_of_rejected {o : Operand} {s : State} {a : Value} {c : Cause} (ha : resolve o s = .ok a)
    (h : memWrite a s.acc s = .error c) : execSta o s = .next (dispatchFailure c (s.setAr a)) := by
  simp [execSta, ha, memWrite_setAr_error a h]

/-- Settles O26, by whether the write is accepted. -/
theorem staStoresTheAccumulator : Obligations.StaStoresTheAccumulator := by
  intro o s a ha
  refine ⟨fun t ht => execSta_of_memWrite ha ht, fun c hc => ?_⟩
  rw [memWrite_error hc] at hc
  exact execSta_of_rejected ha hc

/-! ### Control transfer -/

/-- Settles O27. -/
theorem brLoadsTheTarget : Obligations.BrLoadsTheTarget := fun _ _ _ ha => jump_of_resolve ha

/-- A branch that is not taken does nothing, and does not look at its operand (D27). -/
theorem branchIf_of_not_test {test : Int → Bool} {s : State} {x : Word} (o : Operand) (hacc : s.acc = .int x)
    (htest : test x.toInt = false) : branchIf test o s = .next s := by
  simp [branchIf, hacc, htest]

/-- Settles O28: the sign decides both tests. -/
theorem brpAndBrzBranchOnTheSignOfTheAccumulator : Obligations.BrpAndBrzBranchOnTheSignOfTheAccumulator := by
  intro o s x hacc
  refine ⟨fun hpos => ⟨fun a ha => ?_, ?_⟩, fun hzero => ⟨?_, fun a ha => ?_⟩, fun hneg => ⟨?_, ?_⟩⟩
  · exact (branchIf_of_test o hacc (decide_eq_true hpos)).trans (jump_of_resolve ha)
  · exact branchIf_of_not_test o hacc (decide_eq_false hpos.ne')
  · exact branchIf_of_not_test o hacc (decide_eq_false hzero.not_gt)
  · exact (branchIf_of_test o hacc (decide_eq_true hzero)).trans (jump_of_resolve ha)
  · exact branchIf_of_not_test o hacc (decide_eq_false hneg.not_gt)
  · exact branchIf_of_not_test o hacc (decide_eq_false hneg.ne)

/-- What the cell of a `bri` holds does not resolve: AR stays written. -/
theorem execBri_of_unresolved {o : Operand} {s s1 : State} {a v : Value} {c : Cause} (ha : resolve o s = .ok a)
    (hread : memRead a s = some (v, s1)) (hc : resolveValue v s = .error c) :
    execBri o s = .next (dispatchFailure c (s1.setAr a)) := by
  have hreadAr : memRead a (s.setAr a) = some (v, s1.setAr a) := by simp [memRead_setAr, hread]
  have htarget : resolveValue v (s1.setAr a) = .error c := by
    rw [resolveValue_after_memRead hreadAr, ← hc]
    exact resolve_setAr v.asToken s a
  simp [execBri, ha, hreadAr, htarget]

/-- Settles O29, by whether what was read resolves. -/
theorem briJumpsThroughTheCell : Obligations.BriJumpsThroughTheCell := by
  intro o s s1 a v ha hread
  refine ⟨fun p hp => execBri_of_resolve ha hread hp, fun c hc => ?_⟩
  obtain rfl : c = .unresolvedAddress := resolve_error hc
  exact execBri_of_unresolved ha hread hc

section brs
variable {o : Operand} {s t : State} {n r : Word}

theorem execBrs_of_memWrite (ha : resolve o s = .ok (.int n)) (hr : r.toInt = n.toInt + 1)
    (hw : memWrite (.int n) s.pc s = .ok t) : execBrs o s = .next (t.setPc (.int r)) := by
  simp [execBrs, ha, narrow_eq_ok.2 hr, hw]

theorem execBrs_of_entry_out_of_range (ha : resolve o s = .ok (.int n)) (hn : n.toInt = intMax) :
    execBrs o s = .next (dispatchFailure .integerOverflow s) := by
  have hentry : narrow (n.toInt + 1) = .error .integerOverflow := narrow_eq_error.2 ⟨rfl, .inr (by omega)⟩
  simp [execBrs, ha, hentry]

theorem execBrs_of_rejected {c : Cause} (ha : resolve o s = .ok (.int n)) (hn : n.toInt ≠ intMax)
    (hw : memWrite (.int n) s.pc s = .error c) : execBrs o s = .next (dispatchFailure c s) := by
  have hrange := word_inRange n
  obtain ⟨r, hr⟩ : ∃ r : Word, r.toInt = n.toInt + 1 := exists_toInt_eq_of_inRange ⟨by omega, by omega⟩
  simp [execBrs, ha, narrow_eq_ok.2 hr, hw]

theorem execBrs_of_no_integer {a : Value} (ha : resolve o s = .ok a) (h : isInt a = false) :
    execBrs o s = .next (dispatchFailure .addressOutOfRange s) := by
  have haddress : writeAddress a = .error .addressOutOfRange :=
    writeAddress_of_not_int fun n hn => by simp [hn, isInt] at h
  simp [execBrs, ha, haddress]

end brs

/-- Settles O30, by where the micro-operations of `brs` end. -/
theorem brsSavesThePcAndEntersPastTheCell : Obligations.BrsSavesThePcAndEntersPastTheCell := by
  refine ⟨fun o s n ha => ⟨fun t r hr hw => execBrs_of_memWrite ha hr hw, execBrs_of_entry_out_of_range ha, ?_⟩,
    fun o s a ha hno => execBrs_of_no_integer ha hno⟩
  intro c hn hw
  rw [memWrite_error hw] at hw
  exact execBrs_of_rejected ha hn hw

/-- Settles O31. -/
theorem hltZeroesThePc : Obligations.HltZeroesThePc := fun _ _ => rfl

/-! ### Operands that do not resolve, and reads that wait -/

/-- The nine instructions that always resolve their operand do so first. -/
theorem exec_resolves {o : Operand} {i : Instr}
    (hi : i ∈ [Instr.add o, .sub o, .mlt o, .div o, .lda o, .sta o, .br o, .bri o, .brs o]) (s : State) :
    ∃ k, exec i s = orRaise (resolve o s) s k := by
  simp only [List.mem_cons, List.not_mem_nil, or_false] at hi
  obtain rfl | rfl | rfl | rfl | rfl | rfl | rfl | rfl | rfl := hi <;> exact ⟨_, rfl⟩

/-- Settles O32: `resolve` raises before anything else is done. -/
theorem unresolvableOperandsRaiseUnresolvedAddress : Obligations.UnresolvableOperandsRaiseUnresolvedAddress := by
  intro o s ho
  have hfail : resolve o s = .error .unresolvedAddress := by
    obtain rfl | ⟨n, rfl, hn⟩ := ho
    · rfl
    · exact resolve_sym_of_unbound hn
  have hjump : jump o s = .next (dispatchFailure .unresolvedAddress s) := by simp [jump, hfail]
  refine ⟨fun i hi => ?_, fun x hacc hx => ?_, fun x hacc hx => ?_⟩
  · obtain ⟨k, hk⟩ := exec_resolves hi s
    rw [hk, hfail]
    rfl
  · exact (branchIf_of_test o hacc (decide_eq_true hx)).trans hjump
  · exact (branchIf_of_test o hacc (decide_eq_true hx)).trans hjump

/-- `lda` and `bri` write AR and then read. -/
theorem exec_reads_with_ar {o : Operand} {i : Instr} (hi : i ∈ [Instr.lda o, .bri o]) (s : State) :
    ∃ k : Value → Value → State → Result,
      exec i s = orRaise (resolve o s) s fun a => orWait (memRead a (s.setAr a)) (s.setAr a) (k a) := by
  simp only [List.mem_cons, List.not_mem_nil, or_false] at hi
  obtain rfl | rfl := hi
  · exact ⟨fun _ v s1 => .next (s1.setAcc v), rfl⟩
  · exact ⟨fun _ t s1 => orRaise (resolveValue t s1) s1 fun target => .next (s1.setPc target), rfl⟩

/-- Settles O33: the read comes after `resolve` and, for `lda` and `bri`, after the write of AR. -/
theorem readingTheDeviceWithoutInputWaits : Obligations.ReadingTheDeviceWithoutInputWaits := by
  intro o s ha hq
  refine ⟨fun i hi => ?_, fun i hi => ?_⟩
  · obtain ⟨op, hop⟩ := exec_eq_twoOperand hi
    have hread : memRead (.int 0) s = none := memRead_none_iff.2 ⟨rfl, hq⟩
    rw [hop, twoOperand, ha, orRaise_ok, hread]
    rfl
  · obtain ⟨k, hk⟩ := exec_reads_with_ar hi s
    have hread : memRead (.int 0) (s.setAr (.int 0)) = none := memRead_none_iff.2 ⟨rfl, hq⟩
    rw [hk, ha, orRaise_ok, hread]
    rfl

end Sys2Proof.Machine
end

section
/-! PROOFS. The statements of 40_cycle_and_dispatch.md on a whole cycle, and the round trips of 20_memory.md section 7,
42_data_movement.md section 4 and 43_control_transfer.md section 3: a store and the fetch or load that follows it, a
call and its return. -/

namespace Sys2Proof.Machine

/-! ### A whole cycle -/

section cycle
variable {s : State} {p q : Word}

theorem fetch_eq (hp : s.pc = .int p) : fetch s = { s with ar := .int p, ir := s.mem.read p.toInt } := by
  change (s.setAr s.pc).setIr (memPeek s.pc s) = (s.setAr (.int p)).setIr (memPeek (.int p) s)
  rw [hp]

/-- A cycle whose increment goes through is its Execute phase and the loop test. -/
theorem step_of_increment (hr : s.running = true) (hb : s.blocked = false) (hp : s.pc = .int p) (hne : p ≠ 0)
    (hq : narrow (p.toInt + 1) = .ok q) :
    step s = andThen (execute ((fetch s).setPc (.int q))) fun t => .next (loopTest t) := by
  have hpc : s.pc ≠ .int 0 := hp ▸ int_ne_device hne
  have hfetched : (fetch s).pc = .int p := hp
  rw [step_of_cycle hr hb hpc, cycle, incrementAndExecute, hfetched]
  simp only [hq, orRaise_ok]

theorem execute_of_decodeValue {i : Instr} (h : decodeValue s.ir = .ok i) : execute s = exec i s := by
  simp [execute, h]

/-- A failure in a cycle ends the run. -/
theorem loopTest_dispatchFailure (c : Cause) (s : State) :
    loopTest (dispatchFailure c s) = (dispatchFailure c s).setRunning false := if_pos rfl

end cycle

/-- Settles O34: the cell decodes to the instruction of its word, which always answers a next state. -/
theorem stepRunsTheDecodedInstruction : Obligations.StepRunsTheDecodedInstruction := by
  intro s p q w v i hr hb hp hne hq hread hcell hdecode
  obtain ⟨t, ht⟩ := exists_next_exec i { s with ar := .int p, ir := v, pc := .int q }
  refine ⟨t, ht, ?_⟩
  have hi : decodeValue v = .ok i := (decode_of_decodeCell hcell).symm.trans hdecode
  have hexecute : execute ((fetch s).setPc (.int q)) = .next t := by
    rw [fetch_eq hp, hread]
    exact (execute_of_decodeValue hi).trans ht
  rw [step_of_increment hr hb hp hne (narrow_eq_ok.2 hq), hexecute]
  rfl

/-- A Value that is no record, or a record without a handler, does not decode. -/
theorem exists_decodeValue_error {v : Value} (h : ∀ m o, v = .instr m o → m = 0x00 ∨ 0x11 ≤ m.toNat) :
    ∃ e, decodeValue v = .error e := by
  cases hv : decodeValue v with
  | error e => exact ⟨e, rfl⟩
  | ok i =>
    obtain rfl := decodeValue_eq_ok.1 hv
    exact absurd (h i.opcode i.operand rfl) (exists_decodeValue_instr.1 ⟨i, hv⟩)

/-- Settles O35: the cell does not decode, so Execute fails; and the opcodes with a handler are those of the table. -/
theorem executingANonInstructionRaisesUnknownMnemonic : Obligations.ExecutingANonInstructionRaisesUnknownMnemonic := by
  refine ⟨fun s p q hr hb hp hne hq h => ?_, fun m o => exists_decodeValue_instr⟩
  obtain ⟨e, he⟩ := exists_decodeValue_error h
  have hir : decodeValue ((fetch s).setPc (.int q)).ir = .error e := by
    rw [fetch_eq hp]
    exact he
  rw [step_of_increment hr hb hp hne (narrow_eq_ok.2 hq), execute_of_decodeValue_error hir, andThen_next,
    loopTest_dispatchFailure, fetch_eq hp]
  rfl

/-- Settles O36: the increment raises before Execute. -/
theorem incrementPastTheRangeFailsBeforeExecute : Obligations.IncrementPastTheRangeFailsBeforeExecute := by
  intro s p hr hb hp hmax
  have hne : s.pc ≠ .int 0 := by
    rw [hp]
    rintro ⟨⟩
    simp [intMax] at hmax
  have hnarrow : narrow (p.toInt + 1) = .error .integerOverflow := narrow_eq_error.2 ⟨rfl, .inr (by omega)⟩
  have hfetched : (fetch s).pc = .int p := hp
  rw [step_of_cycle hr hb hne, cycle, incrementAndExecute, hfetched]
  simp only [hnarrow, orRaise_error, andThen_next]
  rw [loopTest_dispatchFailure, fetch_eq hp]
  rfl

/-! ### Round trips -/

/-- An accepted `sta` has one next state. -/
theorem exec_sta_eq {o : Operand} {s t u : State} {z : Word} (ha : resolve o s = .ok (.int z))
    (hw : memWrite (.int z) s.acc s = .ok u) (h : exec (.sta o) s = .next t) : t = u.setAr (.int z) :=
  Host.Outcome.next.inj (h.symm.trans (execSta_of_memWrite ha hw))

/-- Settles O57: the fetch reads memory as the store left it. -/
theorem storeIsSeenByTheNextFetch : Obligations.StoreIsSeenByTheNextFetch := by
  intro o s t u z hz ha hw h hpc
  obtain rfl := exec_sta_eq ha hw h
  have hcell : memPeek (.int z) u = s.acc := memPeek_after_memWrite hz hw
  rw [fetch_eq hpc]
  exact ⟨hcell, rfl⟩

/-- Past its read a two-operand instruction leaves the Value read in B, whether or not it fails. -/
theorem twoOperand_b {op : Int → Int → Except Cause Int} {o : Operand} {s s1 t : State} {a v : Value}
    (ha : resolve o s = .ok a) (hread : memRead a s = some (v, s1)) (h : twoOperand op o s = .next t) : t.b = v := by
  rcases twoOperand_cases h with ⟨c, hc, -⟩ | ⟨a', ha', hnone, -⟩ | ⟨a', v', s1', c, ha', hread', rfl⟩ |
    ⟨a', s1', x, y, z, r, ha', hread', -, -, -, rfl⟩
  · simp [ha] at hc
  all_goals obtain rfl : a' = a := Except.ok.inj (ha'.symm.trans ha)
  · simp [hread] at hnone
  · cases hread.symm.trans hread'
    rfl
  · cases hread.symm.trans hread'
    rfl

/-- Settles O55: the read of the address gives the Value stored. -/
theorem storeThenLoadGivesTheValueBack : Obligations.StoreThenLoadGivesTheValueBack := by
  intro o o' s t u z hz ha hw h ha'
  obtain rfl := exec_sta_eq ha hw h
  obtain ⟨-, -, -, -, -, -, hfault, -⟩ := memWrite_frame hw
  have hread : memRead (.int z) (u.setAr (.int z)) = some (s.acc, u.setAr (.int z)) := by
    rw [memRead_of_ne _ (int_ne_device hz), memPeek_setAr, memPeek_after_memWrite hz hw]
  have hlda := execLda_of_memRead ha' hread
  refine ⟨hfault, hlda, fun i r hi hr => ?_⟩
  obtain ⟨op, hop⟩ := exec_eq_twoOperand hi
  exact twoOperand_b ha' hread ((hop _).symm.trans hr)

/-- A `brs` without a failure has written PC to its cell and entered past it. -/
theorem execBrs_of_no_fault {o : Operand} {s t : State} {n r : Word} (ha : resolve o s = .ok (.int n))
    (hr : r.toInt = n.toInt + 1) (h : exec (.brs o) s = .next t) (hfault : t.fault = none) :
    ∃ w, memWrite (.int n) s.pc s = .ok w ∧ t = w.setPc (.int r) := by
  rcases execBrs_cases h with ⟨c, rfl⟩ | ⟨n', r', w, ha', hr', hw, rfl⟩
  · simp at hfault
  · obtain rfl : n' = n := Value.int.inj (Except.ok.inj (ha'.symm.trans ha))
    obtain rfl : r' = r := Except.ok.inj (hr'.symm.trans (narrow_eq_ok.2 hr))
    exact ⟨w, hw, rfl⟩

/-- Settles O56: the cell holds the PC of the call, and the operand resolves as it did. -/
theorem returnResumesAfterTheCall : Obligations.ReturnResumesAfterTheCall := by
  intro o s t u n k r hn ha hpc hr _ h hfault hmem hsym hparams
  obtain ⟨w, hw, rfl⟩ := execBrs_of_no_fault ha hr h hfault
  rw [hpc] at hw
  obtain ⟨-, -, -, -, -, -, -, -, -, -, hwparams⟩ := memWrite_frame hw
  have hwsym := memWrite_int_keeps_sym hw
  have hwcell := memPeek_after_memWrite hn hw
  refine ⟨rfl, ?_⟩
  have haddress : resolve o u = .ok (.int n) := by
    rw [← ha]
    exact resolve_congr o (symLookup_congr (hsym.trans hwsym) (hparams.trans hwparams))
  have hcell : u.mem.read n.toInt = .int k := by
    rw [hmem]
    exact hwcell
  have hread : memRead (.int n) u = some (.int k, u) := by rw [memRead_int u hn, hcell]
  exact execBri_of_resolve haddress hread (resolveValue_int k u)

end Sys2Proof.Machine
end

section
/-! PROOFS. What a step does not depend on: DIAG (10_state.md R30), the input where address 0 is not read (10_state.md
section 2, the device column), and whether the input was there before the wait (60_exceptions.md section 6). -/

namespace Sys2Proof.Machine

/-! ### Changes that no handler sees -/

/-- The same answer with `f` applied to the next state. -/
def onNext (f : State → State) (r : Result) : Result := andThen r fun t => .next (f t)

/-- What a read answers, with `f` applied to its state. -/
def onRead (f : State → State) (x : Option (Value × State)) : Option (Value × State) := x.map fun p => (p.1, f p.2)

/-- `f` changes a part of the state that no handler looks at or writes, but for a read of the device. -/
structure Unseen (f : State → State) : Prop where
  pc : ∀ s, (f s).pc = s.pc
  acc : ∀ s, (f s).acc = s.acc
  mem : ∀ s, (f s).mem = s.mem
  params : ∀ s, (f s).params = s.params
  symLookup : ∀ s n, symLookup (f s) n = symLookup s n
  setPc : ∀ s v, (f s).setPc v = f (s.setPc v)
  setAr : ∀ s v, (f s).setAr v = f (s.setAr v)
  setAcc : ∀ s v, (f s).setAcc v = f (s.setAcc v)
  setB : ∀ s v, (f s).setB v = f (s.setB v)
  setMem : ∀ s m, (f s).setMem m = f (s.setMem m)
  setBlocked : ∀ s w, (f s).setBlocked w = f (s.setBlocked w)
  symBind : ∀ s n v, symBind (f s) n v = f (symBind s n v)
  devOut : ∀ s v, devOut v (f s) = f (devOut v s)
  dispatchFailure : ∀ s c, dispatchFailure c (f s) = f (dispatchFailure c s)

theorem unseen_setDiag (d : Bool) : Unseen fun s => s.setDiag d := by
  constructor <;> intros <;> rfl

theorem unseen_setInQ (q : List DeviceValue) : Unseen fun s => s.setInQ q := by
  constructor <;> intros <;> rfl

section unseen
variable {f : State → State} {o : Operand} {s : State}

theorem resolve_unseen (hf : Unseen f) (o : Operand) (s : State) : resolve o (f s) = resolve o s :=
  resolve_congr o (hf.symLookup s)

theorem memRead_unseen (hf : Unseen f) {a : Value} (s : State)
    (hdev : a = .int deviceAddr → ∀ s, devIn (f s) = onRead f (devIn s)) :
    memRead a (f s) = onRead f (memRead a s) := by
  by_cases ha : a = .int deviceAddr
  · rw [ha, memRead_device, memRead_device, hdev ha]
  · rw [memRead_of_ne _ ha, memRead_of_ne _ ha]
    cases a <;> simp [onRead, memPeek, hf.mem, hf.symLookup]

theorem memWrite_unseen (hf : Unseen f) (a v : Value) (s : State) :
    memWrite a v (f s) = (memWrite a v s).map f := by
  unfold memWrite
  split
  · simp [Except.map, hf.devOut]
  cases a with
  | unset | instr => rfl
  | name n =>
    simp only [hf.symLookup, hf.symBind]
    split <;> rfl
  | int z =>
    simp only [hf.mem, hf.params, hf.setMem]
    split_ifs <;> rfl

theorem orRaise_unseen (hf : Unseen f) {α : Type} {x : Except Cause α} {k k' : α → Result}
    (hk : ∀ a, x = .ok a → k' a = onNext f (k a)) : orRaise x (f s) k' = onNext f (orRaise x s k) := by
  cases x with
  | error c => simp [onNext, hf.dispatchFailure]
  | ok a => exact hk a rfl

theorem orWait_unseen (hf : Unseen f) {x : Option (Value × State)} {k k' : Value → State → Result}
    (hk : ∀ v s1, k' v (f s1) = onNext f (k v s1)) :
    orWait (onRead f x) (f s) k' = onNext f (orWait x s k) := by
  cases x with
  | none => simp [onNext, onRead, hf.setBlocked]
  | some p => exact hk p.1 p.2

/-- A store in a handler, and what follows it. -/
theorem orRaise_memWrite_unseen (hf : Unseen f) {a v : Value} {u : State} {k k' : State → Result}
    (hk : ∀ t, k' (f t) = onNext f (k t)) :
    orRaise (memWrite a v (f u)) (f s) k' = onNext f (orRaise (memWrite a v u) s k) := by
  rw [memWrite_unseen hf]
  cases memWrite a v u with
  | error c => exact congrArg Host.Outcome.next (hf.dispatchFailure s c)
  | ok t => exact hk t

theorem twoOperand_unseen (hf : Unseen f) {op : Int → Int → Except Cause Int}
    (hdev : resolve o s = .ok (.int deviceAddr) → ∀ s, devIn (f s) = onRead f (devIn s)) :
    twoOperand op o (f s) = onNext f (twoOperand op o s) := by
  unfold twoOperand
  rw [resolve_unseen hf]
  refine orRaise_unseen hf fun a ha => ?_
  rw [memRead_unseen hf s fun h => hdev (h ▸ ha)]
  refine orWait_unseen hf fun v s1 => ?_
  rw [hf.setB, hf.acc]
  refine orRaise_unseen hf fun x _ => orRaise_unseen hf fun y _ => orRaise_unseen hf fun z _ =>
    orRaise_unseen hf fun r _ => ?_
  rw [hf.setAcc]
  rfl

theorem oneOperand_unseen (hf : Unseen f) (op : Int → Int) (s : State) :
    oneOperand op (f s) = onNext f (oneOperand op s) := by
  unfold oneOperand
  rw [hf.acc]
  refine orRaise_unseen hf fun x _ => orRaise_unseen hf fun r _ => ?_
  rw [hf.setAcc]
  rfl

theorem execSet_unseen (hf : Unseen f) (o : Operand) (s : State) : execSet o (f s) = onNext f (execSet o s) := by
  refine orRaise_unseen hf fun z _ => ?_
  rw [hf.setAcc]
  rfl

theorem execLda_unseen (hf : Unseen f)
    (hdev : resolve o s = .ok (.int deviceAddr) → ∀ s, devIn (f s) = onRead f (devIn s)) :
    execLda o (f s) = onNext f (execLda o s) := by
  unfold execLda
  rw [resolve_unseen hf]
  refine orRaise_unseen hf fun a ha => ?_
  rw [hf.setAr, memRead_unseen hf _ fun h => hdev (h ▸ ha)]
  refine orWait_unseen hf fun v s1 => ?_
  rw [hf.setAcc]
  rfl

theorem execSta_unseen (hf : Unseen f) (o : Operand) (s : State) : execSta o (f s) = onNext f (execSta o s) := by
  unfold execSta
  rw [resolve_unseen hf]
  refine orRaise_unseen hf fun a _ => ?_
  rw [hf.setAr, hf.acc]
  exact orRaise_memWrite_unseen hf fun t => rfl

theorem jump_unseen (hf : Unseen f) (o : Operand) (s : State) : jump o (f s) = onNext f (jump o s) := by
  unfold jump
  rw [resolve_unseen hf]
  refine orRaise_unseen hf fun a _ => ?_
  rw [hf.setPc]
  rfl

theorem branchIf_unseen (hf : Unseen f) (test : Int → Bool) (o : Operand) (s : State) :
    branchIf test o (f s) = onNext f (branchIf test o s) := by
  unfold branchIf
  rw [hf.acc]
  refine orRaise_unseen hf fun x _ => ?_
  split
  · exact jump_unseen hf o s
  · rfl

theorem execBri_unseen (hf : Unseen f)
    (hdev : resolve o s = .ok (.int deviceAddr) → ∀ s, devIn (f s) = onRead f (devIn s)) :
    execBri o (f s) = onNext f (execBri o s) := by
  unfold execBri
  rw [resolve_unseen hf]
  refine orRaise_unseen hf fun a ha => ?_
  rw [hf.setAr, memRead_unseen hf _ fun h => hdev (h ▸ ha)]
  refine orWait_unseen hf fun v s1 => ?_
  rw [resolveValue, resolve_unseen hf]
  refine orRaise_unseen hf fun p _ => ?_
  rw [hf.setPc]
  rfl

theorem execBrs_unseen (hf : Unseen f) (o : Operand) (s : State) : execBrs o (f s) = onNext f (execBrs o s) := by
  unfold execBrs
  rw [resolve_unseen hf]
  refine orRaise_unseen hf fun a _ => orRaise_unseen hf fun n _ => orRaise_unseen hf fun r _ => ?_
  rw [hf.pc]
  refine orRaise_memWrite_unseen hf fun t => ?_
  rw [hf.setPc]
  rfl

/-- An instruction does the same before and after a change that it does not see. -/
theorem exec_unseen (hf : Unseen f) {i : Instr}
    (hdev : readsDevice i s = true → ∀ s, devIn (f s) = onRead f (devIn s)) :
    exec i (f s) = onNext f (exec i s) := by
  cases i with
  | set o => exact execSet_unseen hf o s
  | add o | sub o | mlt o | div o => exact twoOperand_unseen hf fun h => hdev (decide_eq_true h)
  | neg o | inc o | dec o => exact oneOperand_unseen hf _ s
  | lda o => exact execLda_unseen hf fun h => hdev (decide_eq_true h)
  | sta o => exact execSta_unseen hf o s
  | br o => exact jump_unseen hf o s
  | brp o | brz o => exact branchIf_unseen hf _ o s
  | bri o => exact execBri_unseen hf fun h => hdev (decide_eq_true h)
  | brs o => exact execBrs_unseen hf o s
  | hlt o =>
    change Host.Outcome.next ((f s).setPc (.int 0)) = _
    rw [hf.setPc]
    rfl

end unseen

/-- Settles O54: what the input is makes no difference outside a read of the device. -/
theorem inputIsSeenOnlyThroughAddressZero : Obligations.InputIsSeenOnlyThroughAddressZero :=
  fun _ _ q h => exec_unseen (unseen_setInQ q) fun hdev => absurd (h.symm.trans hdev) (by decide)

/-! ### DIAG through a step -/

section diag
variable (d : Bool) (s : State)

theorem devIn_setDiag : devIn (s.setDiag d) = onRead (fun s => s.setDiag d) (devIn s) := by
  unfold devIn
  rw [State.setDiag_inQ]
  cases s.inQ <;> rfl

theorem execute_setDiag : execute (s.setDiag d) = onNext (fun s => s.setDiag d) (execute s) := by
  unfold execute
  rw [State.setDiag_ir]
  cases decodeValue s.ir with
  | ok i => exact exec_unseen (unseen_setDiag d) fun _ => devIn_setDiag d
  | error e => rfl

theorem loopTest_setDiag : loopTest (s.setDiag d) = (loopTest s).setDiag d := by
  unfold loopTest
  rw [State.setDiag_pc]
  split <;> rfl

/-- The loop test after a phase that does not see DIAG. -/
theorem andThen_loopTest_setDiag (r : Result) :
    (andThen (onNext (fun s => s.setDiag d) r) fun t => .next (loopTest t)) =
      onNext (fun s => s.setDiag d) (andThen r fun t => .next (loopTest t)) := by
  cases r with
  | next t => simp [onNext, loopTest_setDiag]
  | fault f => rfl
  | refused q => rfl

theorem incrementAndExecute_setDiag :
    incrementAndExecute (s.setDiag d) = onNext (fun s => s.setDiag d) (incrementAndExecute s) := by
  unfold incrementAndExecute
  rw [State.setDiag_pc]
  cases s.pc with
  | int p => exact orRaise_unseen (unseen_setDiag d) fun q _ => execute_setDiag d (s.setPc (.int q))
  | unset | name | instr => rfl

theorem resume_setDiag : resume (s.setDiag d) = onNext (fun s => s.setDiag d) (resume s) := by
  unfold resume
  rw [State.setDiag_inQ]
  cases s.inQ with
  | nil => rfl
  | cons v q =>
    change andThen (execute ((s.setBlocked false).setDiag d)) _ = _
    rw [execute_setDiag, andThen_loopTest_setDiag]

theorem cycle_setDiag : cycle (s.setDiag d) = onNext (fun s => s.setDiag d) (cycle s) := by
  change andThen (incrementAndExecute ((fetch s).setDiag d)) _ = _
  rw [incrementAndExecute_setDiag, andThen_loopTest_setDiag]
  rfl

theorem step_of_pc_zero {s : State} (hr : s.running = true) (hb : s.blocked = false) (hp : s.pc = .int 0) :
    step s = .next (loopTest s) := by simp [step, engineStep, hr, hb, hp]

end diag

/-- Settles O53: none of the phases of a cycle sees DIAG. -/
theorem diagnosticsModeHasNoEffect : Obligations.DiagnosticsModeHasNoEffect := by
  intro s d
  change step (s.setDiag d) = onNext (fun s => s.setDiag d) (step s)
  cases hr : s.running with
  | false => rw [step_of_not_running hr, step_of_not_running (s := s.setDiag d) hr, onNext, andThen_next]
  | true =>
    cases hb : s.blocked with
    | true =>
      rw [step_of_blocked hr hb, step_of_blocked (s := s.setDiag d) hr hb]
      exact resume_setDiag d s
    | false =>
      by_cases hp : s.pc = .int 0
      · rw [step_of_pc_zero hr hb hp, step_of_pc_zero (s := s.setDiag d) hr hb hp, loopTest_setDiag]
        rfl
      · rw [step_of_cycle hr hb hp, step_of_cycle (s := s.setDiag d) hr hb hp]
        exact cycle_setDiag d s

/-! ### The wait -/

section wait
variable {i : Instr} {s t : State}

/-- An instruction that waits has written AR at most, with the address it resolves to. -/
theorem exec_waited (h : exec i s = .next t) (hs : s.blocked = false) (ht : t.blocked = true) :
    ∃ a, t = (s.setAr a).setBlocked true ∧ (a = s.ar ∨ (writesAr i = true ∧ resolve i.operand s = .ok a)) := by
  cases exec_ran h with
  | fail => simp [hs] at ht
  | wait a ha => exact ⟨a, rfl, ha⟩
  | finish => simp [hs] at ht
  | store a x p v _ _ hw =>
    obtain ⟨-, -, -, -, -, -, -, -, -, hblocked, -⟩ := memWrite_frame hw
    simp [hblocked, hs] at ht

/-- An instruction that writes AR does the same with the address in AR already. -/
theorem exec_setAr {a : Value} (hi : writesAr i = true) (ha : resolve i.operand s = .ok a) :
    exec i (s.setAr a) = exec i s := by
  cases i with
  | lda o | sta o | bri o =>
    change resolve o s = .ok a at ha
    simp only [exec, execLda, execSta, execBri, resolve_setAr, ha, orRaise_ok]
    rfl
  | _ => cases hi

/-- A step into a wait has fetched and incremented, executes an instruction at a PC other than 0, and has written AR at
most besides. -/
theorem step_waited (hr : s.running = true) (hb : s.blocked = false) (h : step s = .next t) (ht : t.blocked = true) :
    ∃ p q i a, s.pc = .int p ∧ p ≠ 0 ∧ narrow (p.toInt + 1) = .ok q ∧
      decodeValue ((fetch s).setPc (.int q)).ir = .ok i ∧ t = (((fetch s).setPc (.int q)).setAr a).setBlocked true ∧
      (a = (fetch s).ar ∨ (writesAr i = true ∧ resolve i.operand s = .ok a)) := by
  rcases step_cases h with ⟨hr', -⟩ | ⟨-, hb', -⟩ | ⟨-, hb', -⟩ | ⟨-, -, -, rfl⟩ | ⟨-, -, hpc, u, hu, rfl⟩
  · simp [hr] at hr'
  · simp [hb] at hb'
  · simp [hb] at hb'
  · simp [hb] at ht
  have hfetched : (fetch s).blocked = false := hb
  rw [loopTest_blocked] at ht
  obtain ⟨p, hp, ⟨c, -, rfl⟩ | ⟨q, hq, hexec⟩⟩ := incrementAndExecute_cases hu
  · simp [hfetched] at ht
  rcases execute_cases hexec with ⟨e, -, rfl⟩ | ⟨i, hi, hexec⟩
  · simp [hfetched] at ht
  obtain ⟨a, rfl, ha⟩ := exec_waited hexec hfetched ht
  have hp' : s.pc = .int p := hp
  have hq0 : q ≠ 0 := by
    rintro rfl
    have hunset : (fetch s).ir = .unset := by
      rw [fetch_eq hp']
      exact memPeek_of_increment_to_zero hq s
    simp [hunset, decodeValue] at hi
  have hne : p ≠ 0 := fun h0 => hpc (by rw [hp', h0])
  refine ⟨p, q, i, a, hp', hne, hq, hi, if_neg (int_ne_device hq0), ha⟩

end wait

/-- Settles O58: with the value there, both steps enter the Execute phase of the same cycle, but for AR, which the
instruction writes again. -/
theorem waitingForInputChangesNothing : Obligations.WaitingForInputChangesNothing := by
  intro s t d hr hb hq h ht
  obtain ⟨p, q, i, a, hp, hne, hincrement, hi, rfl, ha⟩ := step_waited hr hb h ht
  have hqueue : (supplyInput d ((((fetch s).setPc (.int q)).setAr a).setBlocked true)).inQ = [d] :=
    congrArg (· ++ [d]) hq
  have hstart : step (supplyInput d s) =
      andThen (execute (supplyInput d ((fetch s).setPc (.int q)))) fun t => .next (loopTest t) :=
    step_of_increment (s := supplyInput d s) hr hb hp hne hincrement
  have hresume : step (supplyInput d ((((fetch s).setPc (.int q)).setAr a).setBlocked true)) =
      andThen (execute ((supplyInput d ((fetch s).setPc (.int q))).setAr a)) fun t => .next (loopTest t) := by
    have hstate : (supplyInput d ((((fetch s).setPc (.int q)).setAr a).setBlocked true)).setBlocked false =
        (supplyInput d ((fetch s).setPc (.int q))).setAr a := by
      rw [← hb]
      rfl
    rw [step_of_blocked (s := supplyInput d ((((fetch s).setPc (.int q)).setAr a).setBlocked true)) hr rfl, resume,
      hqueue]
    simp only [hstate]
  rw [hstart, hresume, execute_of_decodeValue (s := supplyInput d ((fetch s).setPc (.int q))) hi,
    execute_of_decodeValue (s := (supplyInput d ((fetch s).setPc (.int q))).setAr a) hi]
  rcases ha with rfl | ⟨hwrites, ha⟩
  · rfl
  · have hresolved : resolve i.operand (supplyInput d ((fetch s).setPc (.int q))) = .ok a :=
      (resolve_congr i.operand fun _ => rfl).trans ha
    rw [exec_setAr hwrites hresolved]

end Sys2Proof.Machine
end
